-- ==== Sys2Proof/Word.lean ====
section
/-! DEFINITION. The two bit-vector types of the PXE engine: the 32-bit register pattern and the byte. -/

namespace Sys2Proof

/-- A 32-bit register pattern (spec/10_state.md R20: nine 32-bit registers). -/
abbrev Word := BitVec 32

/-- A byte of SRC or DST (spec/20_memory.md R67: one byte per access). -/
abbrev Byte := BitVec 8

end Sys2Proof
end

