-- ==== Sys2Proof/Machine/Bus.lean ====
section
/-! DEFINITION. What the outside world can do to the engine (spec/43_host_operations.md, spec/20_memory.md R73), and the
small enumerations of its state: the phase, the error kinds, the register names. -/

namespace Sys2Proof.Machine

/-- The phase (spec/10_state.md R26). -/
inductive Phase where
  | idle
  | busy
  | done
  | err
  deriving DecidableEq, Repr

/-- The three errors (spec/60_exceptions.md R210). -/
inductive ErrorKind where
  | illegal
  | geometry
  | size
  deriving DecidableEq, Repr

/-- The two buffer memories (spec/20_memory.md R60). -/
inductive Space where
  | src
  | dst
  deriving DecidableEq, Repr

/-- What an aligned offset below `0x40` names (spec/10_state.md R34). -/
inductive Reg where
  | width
  | height
  | cmd
  | status
  | ctrl
  | outWidth
  | outHeight
  | outStride
  | outSize
  | reserved
  deriving DecidableEq, Repr

/-- One host access (spec/43_host_operations.md R190, R191, R193, R194; the lines `RD`, `WR`, `LD`, `ST` of
spec/30_encoding.md R99). -/
inductive Access where
  | readReg (off : Nat)
  | writeReg (off : Nat) (v : Word)
  | readMem (space : Space) (a : Nat)
  | writeMem (space : Space) (a : Nat) (v : Byte)
  deriving DecidableEq, Repr

/-- Where a host is inside the expansion of `COPYBACK` (spec/30_encoding.md R100): which access it makes next, and the
values it has read so far. `left` counts the bytes still to copy, the one at `a` included. -/
inductive CopyStep where
  /-- next: `RD OUT_SIZE` -/
  | size
  /-- next: `RD OUT_WIDTH` -/
  | width (n : Word)
  /-- next: `RD OUT_HEIGHT` -/
  | height (n w : Word)
  /-- next: `LD DST[a]` -/
  | load (w h : Word) (a left : Nat)
  /-- next: `ST SRC[a], v` -/
  | store (w h : Word) (a left : Nat) (v : Byte)
  /-- next: `WR WIDTH, w` -/
  | setWidth (w h : Word)
  /-- next: `WR HEIGHT, h` -/
  | setHeight (h : Word)
  deriving DecidableEq, Repr

/-- What the host does at a turn of its own: one access, `POLL`, or the rest of a `COPYBACK`. -/
inductive HostOp where
  | access (a : Access)
  | poll
  | copyback (k : CopyStep)
  deriving DecidableEq, Repr

/-- Who moves next (spec/20_memory.md R73: the steps are host accesses, issues among them, and completions; R240 adds the
reset input). -/
inductive Turn where
  /-- the host makes its next access -/
  | host (op : HostOp)
  /-- the engine moves: a completion where one is enabled (spec/40_geometry_and_lifecycle.md R121) -/
  | engine
  /-- the platform pulses the reset input (spec/70_reset_and_hazards.md R240) -/
  | reset
  deriving DecidableEq, Repr

end Sys2Proof.Machine
end

