-- ==== Sys2Proof/Syntax.lean ====
section
/-! DEFINITION. The instructions: one constructor per row of spec/opcode_table.json. -/

namespace Sys2Proof

/-- The rows of the opcode table. The operands of the two commands are implicit (spec/30_encoding.md R95), so a
constructor carries the free bits of its encoding and nothing else. -/
inductive Instr where
  /-- `ROT90` with the flag `PACK` (spec/41_rot90.md R141): the value of a host write to `CMD`. -/
  | rot90 (pack : Bool)
  /-- `BLUR5` with the flags `BORDER` (`PASS`) and `PACK` (spec/42_blur5.md R161): the value of a host write to `CMD`. -/
  | blur5 (border pack : Bool)
  /-- `SRST` (spec/43_host_operations.md R195): the value of a host write to `CTRL` with bit 0 set. Bits 31:1 are
  ignored by the engine (spec/10_state.md R29) and kept here so that no bit of the written value is dropped. -/
  | srst (ignored : BitVec 31)
  deriving DecidableEq, Repr

end Sys2Proof
end

