-- ==== Sys2Proof/Decode.lean ====
section
/-! DEFINITION. The register map, the decoders of `CMD` and `CTRL` writes, and the encoder
(spec/30_encoding.md, spec/10_state.md R29 and R34, spec/opcode_table.json). -/

namespace Sys2Proof

/-- Why a command word is illegal (spec/30_encoding.md R97). -/
inductive IllegalWord where
  /-- a bit of 31:6 is set -/
  | reservedBits
  /-- `OP` is `0x0` or in `0x3 .. 0xF` -/
  | opcode
  /-- `ROT90` with `BORDER` = 1 -/
  | rot90Border
  deriving DecidableEq, Repr

/-- What a command word decodes to (spec/30_encoding.md R96). -/
inductive CmdWord where
  | command (i : Instr)
  | illegal (why : IllegalWord)
  deriving DecidableEq, Repr

/-- `decode(word)` of spec/30_encoding.md R96: a pure function of the 32 bits written to `CMD`. -/
def decodeCmd (w : Word) : CmdWord :=
  if w.extractLsb' 6 26 ≠ 0 then .illegal .reservedBits
  else if w.extractLsb' 0 4 = 1 then
    if w.getLsbD 4 then .illegal .rot90Border else .command (.rot90 (w.getLsbD 5))
  else if w.extractLsb' 0 4 = 2 then .command (.blur5 (w.getLsbD 4) (w.getLsbD 5))
  else .illegal .opcode

/-- A `CTRL` write (spec/10_state.md R29): with bit 0 set it is `SRST`, else it carries no instruction. -/
def decodeCtrl (w : Word) : Option Instr :=
  if w.getLsbD 0 then some (.srst (w.extractLsb' 1 31)) else none

/-- The register at an offset, or none where no access exists (spec/10_state.md R34, spec/20_memory.md R68). -/
def regAt (off : Nat) : Option Machine.Reg :=
  if off % 4 = 0 ∧ off < 0x40 then
    some (match off with
      | 0x00 => .width
      | 0x04 => .height
      | 0x08 => .cmd
      | 0x0C => .status
      | 0x10 => .ctrl
      | 0x14 => .outWidth
      | 0x18 => .outHeight
      | 0x1C => .outStride
      | 0x20 => .outSize
      | _ => .reserved)
  else none

/-- The offset of `CMD` (spec/10_state.md R25). -/
def cmdOffset : Nat := 0x08

/-- The offset of `CTRL` (spec/10_state.md R29). -/
def ctrlOffset : Nat := 0x10

/-- The instruction a register write carries: a command where the register is `CMD`, `SRST` where it is `CTRL`. -/
def decodeWrite (off : Nat) (w : Word) : Option Instr :=
  match regAt off with
  | some .cmd =>
    match decodeCmd w with
    | .command i => some i
    | .illegal _ => none
  | some .ctrl => decodeCtrl w
  | _ => none

/-- The word of an instruction, from the formats of spec/30_encoding.md R91 and R92 (`RSV`, `PACK`, `BORDER`, `OP`) and
of spec/10_state.md R29. -/
def encode : Instr → Word
  | .rot90 pack => 0#26 ++ BitVec.ofBool pack ++ 0#1 ++ 1#4
  | .blur5 border pack => 0#26 ++ BitVec.ofBool pack ++ BitVec.ofBool border ++ 2#4
  | .srst ignored => ignored ++ 1#1

/-- The register an instruction is written to: the formats `C` and `CTRL` of spec/opcode_table.json. -/
def encodeOffset : Instr → Nat
  | .rot90 _ => cmdOffset
  | .blur5 _ _ => cmdOffset
  | .srst _ => ctrlOffset

/-- The host access that carries an instruction (the lines `ROT90`, `BLUR5`, `SRST` of spec/30_encoding.md R99). -/
def encodeAccess (i : Instr) : Machine.Access := .writeReg (encodeOffset i) (encode i)

/-- A row of spec/opcode_table.json gives a word and not the register it is written to. The rows of format `C` give all 32
bits, the row `SRST` gives bit 0 only. A word is read as a `CTRL` write when its bit 0 is set and it is numbered with fewer
than 32 bits or is no legal command word, and as a `CMD` write otherwise. DESIGN CHOICE, log entry 5. -/
def tableOffset (nbits w : Nat) : Nat :=
  let v : Word := BitVec.ofNat 32 w
  if v.getLsbD 0 && (decide (nbits < 32) || (decodeWrite cmdOffset v).isNone) then ctrlOffset else cmdOffset

/-- The instruction the decoder reads from a word of the opcode table, at the register `tableOffset` gives. -/
def decodeTableWord (nbits w : Nat) : Option Instr :=
  decodeWrite (tableOffset nbits w) (BitVec.ofNat 32 w)

end Sys2Proof
end

