-- ==== Sys2Proof/Config.lean ====
section
/-! DEFINITION. What an implementation fixes (spec/00_scope.md R6, R7) and the free values the spec leaves open (R8). -/

namespace Sys2Proof

/-- The shape of the coefficient table: five rows of five natural numbers, indexed `[row][col]` (R7). -/
abbrev Kernel := Vector (Vector Nat 5) 5

/-- What is fixed for one engine and never written by a step: `BUF_BYTES` (open, R6) and `KERNEL` (a configuration
value, R7 and U9). The state carries it so that every claim is about every value of the two. -/
structure Params where
  /-- `BUF_BYTES`, the capacity in bytes of each of SRC and DST. -/
  bufBytes : Nat
  /-- `KERNEL`, the blur weights in thousandths. -/
  kernel : Kernel
  deriving DecidableEq, Repr

namespace Config

/-- `BYTES_PER_PIXEL` (R6). -/
def bytesPerPixel : Nat := 3

/-- `BITS_PER_PIXEL` (R6). -/
def bitsPerPixel : Nat := 24

/-- `ROW_ALIGN` (R6). -/
def rowAlign : Nat := 4

/-- `RADIUS` (R6). -/
def radius : Nat := 2

/-- `KSIZE` (R6). -/
def ksize : Nat := 2 * radius + 1

/-- `KSCALE` (R6): the weights are in thousandths. -/
def kscale : Nat := 1000

/-- `DIM_BITS` (R6): the width of `WIDTH` and `HEIGHT`. -/
def dimBits : Nat := 32

/-- The printed table `KERNEL` of R7. -/
def kernel : Kernel :=
  #v[#v[ 3, 13,  22, 13,  3],
     #v[13, 59,  97, 59, 13],
     #v[22, 97, 159, 97, 22],
     #v[13, 59,  97, 59, 13],
     #v[ 3, 13,  22, 13,  3]]

/-- DESIGN CHOICE (log entry 1): the spec leaves `BUF_BYTES` open and its test vectors take 1024 unless they say
otherwise. Only `State.reset` uses this number; no statement rests on it. -/
def params : Params := { bufBytes := 1024, kernel := kernel }

/-- `unspecified(8)` (R8): the byte of the n-th draw. No value of it can be proved. Log entry 3. -/
opaque freeByte : Nat → Byte

/-- `unspecified(32)` (R8): the word of the n-th draw. No value of it can be proved. Log entry 3. -/
opaque freeWord : Nat → Word

end Config

end Sys2Proof
end

