-- ==== Sys2Proof/Machine/Memory.lean ====
section
/-! DEFINITION. The two byte memories (spec/20_memory.md R61, R62, R67): a list of (address, byte) cells in one canonical
form, and its operations. -/

namespace Sys2Proof.Machine

/-- A byte memory. A listed cell holds a defined byte; an address that is not listed holds `unspecified(8)`
(spec/70_reset_and_hazards.md R244): it has no value, so no cell can equal what an unlisted address reads as. -/
abbrev Memory := List Host.Cell

/-- The canonical form: addresses strictly rising. -/
abbrev Memory.wf (m : Memory) : Prop := List.Pairwise (fun c d => c.1 < d.1) m

/-- Every listed address is below `n` (the memory has the addresses `0 .. n-1`, R61 and R62). -/
abbrev Memory.within (m : Memory) (n : Nat) : Prop := ∀ c ∈ m, c.1 < n

/-- `MemRead(S, a, 1)` (spec/00_scope.md R8): the byte at `a`, or none where it is `unspecified(8)`. -/
def Memory.read? : Memory → Nat → Option Byte
  | [], _ => none
  | c :: m, a => if c.1 = a then some c.2 else Memory.read? m a

/-- `MemWrite(S, a, 1, v)` (R8): stores `v` at `a`, keeping the canonical form. -/
def Memory.write : Memory → Nat → Byte → Memory
  | [], a, v => [(a, v)]
  | c :: m, a, v =>
    if c.1 < a then c :: Memory.write m a v
    else if c.1 = a then (a, v) :: m
    else (a, v) :: c :: m

/-- The byte at `a` becomes `unspecified(8)`. -/
def Memory.forget (m : Memory) (a : Nat) : Memory := m.filter fun c => c.1 != a

/-- Stores a byte that may be `unspecified(8)` (R244: a result byte computed from an unwritten byte is unspecified). -/
def Memory.put (m : Memory) (a : Nat) (v : Option Byte) : Memory :=
  match v with
  | some b => m.write a b
  | none => m.forget a

/-- Makes the stores of a list, the first one first. -/
def Memory.writeAll (m : Memory) (ws : List (Nat × Option Byte)) : Memory :=
  ws.foldl (fun m w => m.put w.1 w.2) m

/-- `for a in 0 .. n-1: MemWrite(DST, a, 1, 0)` (spec/40_geometry_and_lifecycle.md R121, R122). -/
def zeroWrites (n : Nat) : List (Nat × Option Byte) := (List.range n).map fun a => (a, some 0)

end Sys2Proof.Machine
end

