-- ==== Sys2Proof/Machine/State.lean ====
section
/-! DEFINITION. The state of the engine (spec/10_state.md R20), its stops, and the state after hardware reset (R37). -/

namespace Sys2Proof.Machine

/-- The whole state. `STATUS` and `CTRL` have no storage of their own: `STATUS` is the view of `phase`, `hzd` and `errcode`
(R28), and `CTRL` holds nothing and reads 0 (R29). The hidden counters of R35 are no state of the model: no rule reads them
outside the one step of the command that owns them. -/
structure State where
  /-- `WIDTH` (R21) -/
  width : Word
  /-- `HEIGHT` (R22) -/
  height : Word
  /-- `CMD` (R25) -/
  cmd : Word
  /-- the phase (R26) -/
  phase : Phase
  /-- the sticky hazard flag `HZD` (R30) -/
  hzd : Bool
  /-- `ERRCODE` (R28, spec/60_exceptions.md R210) -/
  errcode : BitVec 4
  /-- `OUT_WIDTH` (R23) -/
  outWidth : Word
  /-- `OUT_HEIGHT` (R23) -/
  outHeight : Word
  /-- `OUT_STRIDE` (R23) -/
  outStride : Word
  /-- `OUT_SIZE` (R23) -/
  outSize : Word
  /-- SRC (R32) -/
  src : Memory
  /-- DST (R33) -/
  dst : Memory
  /-- `BUF_BYTES` and `KERNEL` (R31, R36): fixed for the machine, changed by no step -/
  params : Params
  /-- the model's own: the accesses the host has still to make, with the engine's and the platform's moves between them
  (log entry 2) -/
  turns : List Turn
  /-- the model's own: the values the host's reads have returned, latest first, bytes zero-extended (log entry 4) -/
  reads : List Word
  /-- the model's own: how many free values have been drawn (log entry 3) -/
  draws : Nat
  deriving DecidableEq, Repr

/-- What stops the machine with a fault. The engine's own errors (R210) are no fault of this kind: they are the phase `ERR`. -/
inductive Fault where
  /-- Raised by the completion step in a state whose phase is `BUSY` although the issue checks fail for its `CMD`, `WIDTH`
  and `HEIGHT`. The spec says that this does not occur ("Completion cannot fail", spec/40_geometry_and_lifecycle.md R121), and
  no step that starts in a state of `State.Inv` raises it. Safe. -/
  | busyWithoutCommand
  deriving DecidableEq, Repr

/-- What has no step. -/
inductive Refusal where
  /-- Raised by an arm of `exec` whose instruction has no meaning yet; no arm is left so. Safe. -/
  | notModelled (mnemonic : String)
  /-- Raised by a host access to a register offset that is no multiple of 4 or not below `0x40`: "a model refuses it (it has
  no step)" (spec/20_memory.md R68). Safe. -/
  | noSuchRegister (off : Nat)
  deriving DecidableEq, Repr

/-- The state after hardware reset of an engine with parameters `p` (R37, spec/70_reset_and_hazards.md R240): every register
0, phase `IDLE`, every byte of SRC and DST `unspecified(8)`, and nothing for the host to do. -/
def State.resetWith (p : Params) : State :=
  { width := 0, height := 0, cmd := 0, phase := .idle, hzd := false, errcode := 0,
    outWidth := 0, outHeight := 0, outStride := 0, outSize := 0,
    src := [], dst := [], params := p, turns := [], reads := [], draws := 0 }

/-- The machine right after reset (R37), with the parameters of `Config.params` (log entry 1). -/
def State.reset : State := State.resetWith Config.params

end Sys2Proof.Machine
end

