-- ==== Sys2Proof/Machine/Flags.lean ====
section
/-! DEFINITION. The status flags (spec/10_state.md R28, R30) and the error codes (spec/60_exceptions.md R210). The engine has
no arithmetic condition codes (R30). -/

namespace Sys2Proof.Machine

/-- The 4-bit `ERRCODE` of an error (R210). -/
def ErrorKind.code : ErrorKind → BitVec 4
  | .illegal => 1
  | .geometry => 2
  | .size => 3

/-- `STATUS` (R28): `BUSY`, `DONE`, `ERR` in bits 0, 1, 2, `HZD` in bit 3, `ERRCODE` in bits 7:4, bits 31:8 zero. -/
def State.statusWord (s : State) : Word :=
  0#24 ++ s.errcode ++ BitVec.ofBool s.hzd ++ BitVec.ofBool (decide (s.phase = .err))
    ++ BitVec.ofBool (decide (s.phase = .done)) ++ BitVec.ofBool (decide (s.phase = .busy))

/-- Sets the sticky flag `HZD` and nothing else (spec/70_reset_and_hazards.md R247, spec/60_exceptions.md R219). -/
def State.markHazard (s : State) : State := { s with hzd := true }

end Sys2Proof.Machine
end

