-- ==== Sys2Proof/Machine/Operands.lean ====
section
/-! DEFINITION. The implicit operands of the commands and the row-stride arithmetic
(spec/30_encoding.md R95, spec/40_geometry_and_lifecycle.md R110 to R119). -/

namespace Sys2Proof.Machine

/-- `W = sext_32(x[WIDTH])` (R95). -/
def State.imgWidth (s : State) : Int := s.width.toInt

/-- `H = sext_32(x[HEIGHT])` (R95). -/
def State.imgHeight (s : State) : Int := s.height.toInt

/-- `rowSize(w)` (R110). -/
def rowSize (w : Nat) : Nat := (3 * w + 3) / 4 * 4

/-- `stride(w, pack)` (R111). -/
def stride (w : Nat) (pack : Bool) : Nat := if pack then 3 * w else rowSize w

/-- `bufSize(w, h, pack)` (R112). -/
def bufSize (w h : Nat) (pack : Bool) : Nat := stride w pack * h

/-- `addr(S, x, y, c)` (R113). -/
def addr (S x y c : Nat) : Nat := y * S + 3 * x + c

/-- `interior(x, y, W, H)` (R117), with the subtractions moved to the other side. -/
abbrev interiorPixel (x y W H : Nat) : Prop := 2 ≤ x ∧ x + 2 < W ∧ 2 ≤ y ∧ y + 2 < H

/-- `required(Rot90(pack), W, H)` (R119): the larger of the source image and the result image. -/
def rot90Required (pack : Bool) (W H : Nat) : Nat := max (bufSize W H pack) (bufSize H W pack)

/-- `required(Blur5(border, pack), W, H)` (R119). -/
def blur5Required (pack : Bool) (W H : Nat) : Nat := bufSize W H pack

/-- `required` of R119, by command; `SRST` is no command. -/
def requiredOf : Instr → Option (Nat → Nat → Nat)
  | .rot90 pack => some (rot90Required pack)
  | .blur5 _ pack => some (blur5Required pack)
  | .srst _ => none

/-- The size of the result image in pixels (R121, R123): swapped by `ROT90`, the same for `BLUR5`. -/
def outDims : Instr → Nat → Nat → Nat × Nat
  | .rot90 _, W, H => (H, W)
  | .blur5 _ _, W, H => (W, H)
  | .srst _, W, H => (W, H)

end Sys2Proof.Machine
end

