-- ==== Sys2Proof/Machine/Ops.lean ====
section
/-! DEFINITION. The shared operations: free values, register and memory access by name, error entry and the way out of it,
issue, and the end of a command. -/

namespace Sys2Proof.Machine

/-- The host's read returns `v`. -/
def State.pushRead (s : State) (v : Word) : State := { s with reads := v :: s.reads }

/-- The host's register read returns `unspecified(32)` (spec/00_scope.md R8): a fresh draw. -/
def State.pushFreeWord (s : State) : State :=
  { s with reads := Config.freeWord s.draws :: s.reads, draws := s.draws + 1 }

/-- The host's port read returns `unspecified(8)` (R8): a fresh draw. -/
def State.pushFreeByte (s : State) : State :=
  { s with reads := (Config.freeByte s.draws).setWidth 32 :: s.reads, draws := s.draws + 1 }

/-- `x[NAME]` outside `BUSY` (spec/43_host_operations.md R190); `CTRL` and the reserved offsets read 0 (spec/10_state.md R29,
R34). -/
def State.regValue (s : State) : Reg → Word
  | .width => s.width
  | .height => s.height
  | .cmd => s.cmd
  | .status => s.statusWord
  | .ctrl => 0
  | .outWidth => s.outWidth
  | .outHeight => s.outHeight
  | .outStride => s.outStride
  | .outSize => s.outSize
  | .reserved => 0

/-- The memory of a space (spec/20_memory.md R60: an address of one space never names a location of another). -/
def State.mem (s : State) : Space → Memory
  | .src => s.src
  | .dst => s.dst

/-- Replaces the memory of a space. -/
def State.withMem (s : State) : Space → Memory → State
  | .src, m => { s with src := m }
  | .dst, m => { s with dst := m }

/-- `raise Error(code)` (spec/60_exceptions.md R214), the engine's one trap-like event: the phase and the code, nothing else. -/
def raiseError (e : ErrorKind) (s : State) : State := { s with phase := .err, errcode := e.code }

/-- Soft reset (spec/43_host_operations.md R195, spec/10_state.md R37), the way out of phase `ERR`: every register and flag at
its reset value, SRC kept, DST kept unless the phase was `BUSY`. -/
def softReset (s : State) : State :=
  { s with
    width := 0, height := 0, cmd := 0, phase := .idle, hzd := false, errcode := 0
    outWidth := 0, outHeight := 0, outStride := 0, outSize := 0
    dst := if s.phase = .busy then [] else s.dst }

/-- Hardware reset (spec/70_reset_and_hazards.md R240) at any moment: the reset state of the same engine; what the host has
still to do, and what it has read, are not the engine's. -/
def hardwareReset (s : State) : State :=
  { State.resetWith s.params with turns := s.turns, reads := s.reads, draws := s.draws }

/-- The checks of issue in their fixed order (spec/40_geometry_and_lifecycle.md R118, R119): none where the command is
accepted. `need` is `required` of the decoded command, or none for an illegal word. -/
def State.commandError (s : State) (need : Option (Nat → Nat → Nat)) : Option ErrorKind :=
  match need with
  | none => some .illegal
  | some f =>
    if s.imgWidth ≤ 0 ∨ s.imgHeight ≤ 0 then some .geometry
    else if f s.imgWidth.toNat s.imgHeight.toNat > s.params.bufBytes then some .size
    else none

/-- `issue(word)` where the phase allows it (R118): stores the word, then refuses or accepts. -/
def issueNow (word : Word) (need : Option (Nat → Nat → Nat)) (s : State) : State :=
  let s1 : State := { s with cmd := word }
  match s1.commandError need with
  | some e => raiseError e s1
  | none => { s1 with phase := .busy }

/-- A host write of `word` to `CMD` in any phase (spec/43_host_operations.md R191, spec/10_state.md R25). -/
def issue (word : Word) (need : Option (Nat → Nat → Nat)) (s : State) : State :=
  match s.phase with
  | .idle => issueNow word need s
  | .done => issueNow word need s
  | .err => s
  | .busy => s.markHazard

/-- The end of a command whose result is `ow` by `oh` pixels (spec/40_geometry_and_lifecycle.md R121 to R123): the result
buffer is cleared, the body's stores are made, the result registers are written and the phase becomes `DONE`. -/
def finish (ow oh : Nat) (pack : Bool) (body : List (Nat × Option Byte)) (s : State) : State :=
  { s with
    dst := (s.dst.writeAll (zeroWrites (bufSize ow oh pack))).writeAll body
    outWidth := BitVec.ofNat 32 ow
    outHeight := BitVec.ofNat 32 oh
    outStride := BitVec.ofNat 32 (stride ow pack)
    outSize := BitVec.ofNat 32 (bufSize ow oh pack)
    phase := .done }

end Sys2Proof.Machine
end

