-- ==== Sys2Proof/Machine/Blur5.lean ====
section
/-! DEFINITION. `BLUR5` (spec/42_blur5.md): its issue, its body and its completion. -/

namespace Sys2Proof.Machine

/-- A host write of the word of `BLUR5` to `CMD` (R160, R174): the issue step, by phase. -/
def execBlur5 (border pack : Bool) (s : State) : Host.Outcome State Fault Refusal :=
  .next (issue (encode (.blur5 border pack)) (some (blur5Required pack)) s)

/-- The 25 window positions in the order of R162: the row offset `j+2` outside, the column offset `i+2` inside. -/
def taps : List (Fin 5 × Fin 5) :=
  (List.finRange 5).flatMap fun j => (List.finRange 5).map fun i => (j, i)

/-- `KERNEL[j+2][i+2]` (R163: the first subscript is the row). -/
def Kernel.weight (k : Kernel) (j i : Fin 5) : Nat := (k.get j).get i

/-- One term of the sum: `acc + KERNEL[j+2][i+2] * SRC[(y+j)*S + 3*(x+i) + c]`. An unwritten source byte leaves the whole sum
unspecified (spec/70_reset_and_hazards.md R244). -/
def addTap (k : Kernel) (src : Memory) (S x y c : Nat) (acc : Option Nat) (t : Fin 5 × Fin 5) : Option Nat :=
  match acc, src.read? (addr S (x + t.2.val - 2) (y + t.1.val - 2) c) with
  | some a, some b => some (a + Kernel.weight k t.1 t.2 * b.toNat)
  | _, _ => none

/-- `acc` of R162 for an interior pixel: exact, in thousandths (R164). -/
def windowSum (k : Kernel) (src : Memory) (S x y c : Nat) : Option Nat :=
  taps.foldl (addTap k src S x y c) (some 0)

/-- The narrowing `(acc div 1000) mod 256` (R165). -/
def narrow (acc : Nat) : Byte := BitVec.ofNat 8 (acc / Config.kscale % 256)

/-- The store of R162 for channel `c` of pixel `(x, y)`: the filtered byte in the interior, the source byte on the border
under `PASS` (R167), else none (R166). -/
def blur5PixelWrites (k : Kernel) (border : Bool) (S W H : Nat) (src : Memory) (x y c : Nat) :
    List (Nat × Option Byte) :=
  if interiorPixel x y W H then [(addr S x y c, (windowSum k src S x y c).map narrow)]
  else if border then [(addr S x y c, src.read? (addr S x y c))]
  else []

/-- The stores of `blur5_body(W, H, border, pack)` (R162), in the order of its loops. -/
def blur5Writes (k : Kernel) (border pack : Bool) (W H : Nat) (src : Memory) : List (Nat × Option Byte) :=
  (List.range H).flatMap fun y =>
    (List.range W).flatMap fun x =>
      (List.range 3).flatMap fun c => blur5PixelWrites k border (stride W pack) W H src x y c

/-- The completion of `BLUR5` (spec/40_geometry_and_lifecycle.md R121): `OW = W`, `OH = H`. -/
def completeBlur5 (border pack : Bool) (s : State) : State :=
  let W := s.imgWidth.toNat
  let H := s.imgHeight.toNat
  finish W H pack (blur5Writes s.params.kernel border pack W H s.src) s

end Sys2Proof.Machine
end

