-- ==== Sys2Proof/Machine/Rot90.lean ====
section
/-! DEFINITION. `ROT90` (spec/41_rot90.md): its issue, its body and its completion. -/

namespace Sys2Proof.Machine

/-- A host write of the word of `ROT90` to `CMD` (R140, R146): the issue step, by phase. -/
def execRot90 (pack : Bool) (s : State) : Host.Outcome State Fault Refusal :=
  .next (issue (encode (.rot90 pack)) (some (rot90Required pack)) s)

/-- The stores of `rot90_body(W, H, pack)` (R142), in the order of its loops. -/
def rot90Writes (pack : Bool) (W H : Nat) (src : Memory) : List (Nat × Option Byte) :=
  (List.range H).flatMap fun y =>
    (List.range W).flatMap fun x =>
      (List.range 3).map fun c =>
        ((W - 1 - x) * stride H pack + 3 * y + c, src.read? (y * stride W pack + 3 * x + c))

/-- The completion of `ROT90` (spec/40_geometry_and_lifecycle.md R121): `OW = H`, `OH = W`. -/
def completeRot90 (pack : Bool) (s : State) : State :=
  let W := s.imgWidth.toNat
  let H := s.imgHeight.toNat
  finish H W pack (rot90Writes pack W H s.src) s

end Sys2Proof.Machine
end

