-- ==== Sys2Proof/Machine/Complete.lean ====
section
/-! DEFINITION. The completion step, the second half of every command (spec/40_geometry_and_lifecycle.md R121). -/

namespace Sys2Proof.Machine

/-- The completion of the command in flight, by opcode; `SRST` is never in flight. -/
def completeInstr : Instr → State → State
  | .rot90 pack, s => completeRot90 pack s
  | .blur5 border pack, s => completeBlur5 border pack s
  | .srst _, s => s

/-- `complete()` (R121). It decodes the word in `CMD` and takes the operands where they are. "Completion cannot fail": the
fault is for states that issue cannot have left behind. -/
def complete (s : State) : Host.Outcome State Fault Refusal :=
  match decodeCmd s.cmd with
  | .illegal _ => .fault .busyWithoutCommand
  | .command i =>
    match s.commandError (requiredOf i) with
    | some _ => .fault .busyWithoutCommand
    | none => .next (completeInstr i s)

/-- The engine's turn: a completion exactly when the phase is `BUSY`, else nothing (spec/70_reset_and_hazards.md R242). -/
def engineTurn (s : State) : Host.Outcome State Fault Refusal :=
  if s.phase = .busy then complete s else .next s

end Sys2Proof.Machine
end

