-- ==== Sys2Proof/Machine/Srst.lean ====
section
/-! DEFINITION. `SRST` (spec/43_host_operations.md R195). -/

namespace Sys2Proof.Machine

/-- A host write to `CTRL` with bit 0 set, in any phase; bits 31:1 of the written value are ignored (spec/10_state.md R29). -/
def execSrst (_ignored : BitVec 31) (s : State) : Host.Outcome State Fault Refusal :=
  .next (softReset s)

end Sys2Proof.Machine
end

