-- ==== Sys2Proof/Machine/Dispatch.lean ====
section
/-! DEFINITION. One arm per instruction. -/

namespace Sys2Proof.Machine

/-- What an instruction does when the host writes it: the issue of a command, or the soft reset. -/
def exec (i : Instr) (s : State) : Host.Outcome State Fault Refusal :=
  match i with
  | .rot90 pack => Sys2Proof.Machine.execRot90 pack s
  | .blur5 border pack => Sys2Proof.Machine.execBlur5 border pack s
  | .srst ignored => Sys2Proof.Machine.execSrst ignored s

end Sys2Proof.Machine
end

