-- ==== Sys2Proof/Machine/Ports.lean ====
section
/-! DEFINITION. The register port and the buffer ports (spec/43_host_operations.md R190 to R194), and the pseudo-operations of
the host notation (spec/30_encoding.md R100). -/

namespace Sys2Proof.Machine

/-- A register read in phase `BUSY` (R190): only `STATUS` is defined and sets no `HZD`; `CTRL` and reserved offsets read 0. -/
def readRegisterBusy (r : Reg) (s : State) : State :=
  match r with
  | .status => s.pushRead s.statusWord
  | .ctrl => (s.pushRead 0).markHazard
  | .reserved => (s.pushRead 0).markHazard
  | .width => s.pushFreeWord.markHazard
  | .height => s.pushFreeWord.markHazard
  | .cmd => s.pushFreeWord.markHazard
  | .outWidth => s.pushFreeWord.markHazard
  | .outHeight => s.pushFreeWord.markHazard
  | .outStride => s.pushFreeWord.markHazard
  | .outSize => s.pushFreeWord.markHazard

/-- `RD <REG>` (R190). -/
def readRegister (r : Reg) (s : State) : State :=
  if s.phase = .busy then readRegisterBusy r s else s.pushRead (s.regValue r)

/-- A register write outside `BUSY` that carries no instruction (R191). -/
def storeRegister (r : Reg) (v : Word) (s : State) : State :=
  match r with
  | .width => { s with width := v }
  | .height => { s with height := v }
  | .status => s
  | .outWidth => s
  | .outHeight => s
  | .outStride => s
  | .outSize => s
  | .reserved => s
  | .cmd => s
  | .ctrl => s

/-- `WR <REG>, v` to a register other than `CMD` and `CTRL` (R191): dropped with `HZD` in `BUSY`. -/
def writeRegister (r : Reg) (v : Word) (s : State) : State :=
  if s.phase = .busy then s.markHazard else storeRegister r v s

/-- A write to `CMD` of a word that decodes to no command (R118, R191): `ERR_ILLEGAL` where the phase issues it. -/
def issueIllegal (v : Word) (s : State) : State := issue v none s

/-- A port read outside `BUSY` (R193, spec/20_memory.md R69): the byte, or `unspecified(8)` where the address is out of range
or nothing has written it. -/
def loadByte (space : Space) (a : Nat) (s : State) : State :=
  if a < s.params.bufBytes then
    match (s.mem space).read? a with
    | some b => s.pushRead (b.setWidth 32)
    | none => s.pushFreeByte
  else s.pushFreeByte

/-- `LD SRC[a]`, `LD DST[a]` (R193). -/
def readPort (space : Space) (a : Nat) (s : State) : State :=
  if s.phase = .busy then s.pushFreeByte.markHazard else loadByte space a s

/-- `ST SRC[a], v`, `ST DST[a], v` (R194): dropped with `HZD` in `BUSY`, dropped where the address is out of range. -/
def writePort (space : Space) (a : Nat) (v : Byte) (s : State) : State :=
  if s.phase = .busy then s.markHazard
  else if a < s.params.bufBytes then s.withMem space ((s.mem space).write a v)
  else s

/-- `LOAD SRC, [b0, ..., bn-1]` from address `a` on (R100: `a` is 0). -/
def loadTurns : Nat → List Byte → List Turn
  | _, [] => []
  | a, b :: bs => .host (.access (.writeMem .src a b)) :: loadTurns (a + 1) bs

/-- `DUMP DST, n` (R100). -/
def dumpTurns (n : Nat) : List Turn := (List.range n).map fun a => .host (.access (.readMem .dst a))

/-- The next access of a `COPYBACK` (R100). -/
def copyAccess : CopyStep → Access
  | .size => .readReg 0x20
  | .width _ => .readReg 0x14
  | .height _ _ => .readReg 0x18
  | .load _ _ a _ => .readMem .dst a
  | .store _ _ a _ v => .writeMem .src a v
  | .setWidth w _ => .writeReg 0x00 w
  | .setHeight h => .writeReg 0x04 h

/-- Where a `COPYBACK` goes after the byte at `a - 1`, with `left` bytes still to copy from `a` on. -/
def copyFrom (w h : Word) (a left : Nat) : CopyStep :=
  if left = 0 then .setWidth w h else .load w h a left

/-- Where a `COPYBACK` is after the access, `v` being the value the access has read (R100); none at its end. -/
def copyNext (k : CopyStep) (v : Word) : Option CopyStep :=
  match k with
  | .size => some (.width v)
  | .width n => some (.height n v)
  | .height n w => some (copyFrom w v 0 n.toNat)
  | .load w h a left => some (.store w h a left (v.setWidth 8))
  | .store w h a left _ => some (copyFrom w h (a + 1) (left - 1))
  | .setWidth _ h => some (.setHeight h)
  | .setHeight _ => none

end Sys2Proof.Machine
end

