-- ==== Sys2Proof/Machine/Access.lean ====
section
/-! DEFINITION. One host access, and the host's turn (spec/43_host_operations.md R190 to R196). -/

namespace Sys2Proof.Machine

/-- A register write at an offset that exists (R191): `CMD` and `CTRL` go through the decoder, the others are plain. -/
def writeTo (r : Reg) (v : Word) (s : State) : Host.Outcome State Fault Refusal :=
  match r with
  | .cmd =>
    match decodeCmd v with
    | .command i => exec i s
    | .illegal _ => .next (issueIllegal v s)
  | .ctrl =>
    match decodeCtrl v with
    | some i => exec i s
    | none => .next s
  | r => .next (writeRegister r v s)

/-- One host access in any phase. -/
def runAccess (a : Access) (s : State) : Host.Outcome State Fault Refusal :=
  match a with
  | .readReg off =>
    match regAt off with
    | none => .refused (.noSuchRegister off)
    | some r => .next (readRegister r s)
  | .writeReg off v =>
    match regAt off with
    | none => .refused (.noSuchRegister off)
    | some r => writeTo r v s
  | .readMem space a => .next (readPort space a s)
  | .writeMem space a v => .next (writePort space a v s)

/-- `POLL` (spec/30_encoding.md R100, spec/93_implementation_defined.md U10): while `BUSY` it waits for the completion and
polls again, else it reads `STATUS` and ends. -/
def pollTurn (s : State) : Host.Outcome State Fault Refusal :=
  if s.phase = .busy then engineTurn { s with turns := .host .poll :: s.turns }
  else .next (readRegister .status s)

/-- Puts the rest of a `COPYBACK` back in front of the host's accesses. -/
def requeueCopy (k : CopyStep) (s : State) : State :=
  match copyNext k (s.reads.headD 0) with
  | some k' => { s with turns := .host (.copyback k') :: s.turns }
  | none => s

/-- One access of a `COPYBACK`. -/
def copyTurn (k : CopyStep) (s : State) : Host.Outcome State Fault Refusal :=
  match runAccess (copyAccess k) s with
  | .next t => .next (requeueCopy k t)
  | .fault r => .fault r
  | .refused r => .refused r

/-- The host's turn. -/
def hostTurn (op : HostOp) (s : State) : Host.Outcome State Fault Refusal :=
  match op with
  | .access a => runAccess a s
  | .poll => pollTurn s
  | .copyback k => copyTurn k s

end Sys2Proof.Machine
end

