-- ==== Sys2Proof/Machine/Step.lean ====
section
/-! DEFINITION. One step of the machine (spec/20_memory.md R73: one host access, issue or completion), and how a row of the
opcode table comes to run. -/

namespace Sys2Proof.Machine

/-- Takes the first turn off the list. -/
def State.afterTurn (s : State) : State := { s with turns := s.turns.tail }

/-- One step: the agent named by the first turn moves. With no turn left the host does nothing more: a command in flight
completes (spec/40_geometry_and_lifecycle.md R124), else the engine waits (spec/70_reset_and_hazards.md R242). -/
def step (s : State) : Host.Outcome State Fault Refusal :=
  match s.turns with
  | [] => engineTurn s
  | .engine :: _ => engineTurn s.afterTurn
  | .reset :: _ => .next (hardwareReset s.afterTurn)
  | .host op :: _ => hostTurn op s.afterTurn

/-- The machine with the host about to write the table's word: to `CMD`, or to `CTRL` for the row `SRST` (log entries 5
and 6). -/
def State.withFetchWord (s : State) (nbits w : Nat) : State :=
  { s with turns := .host (.access (.writeReg (tableOffset nbits w) (BitVec.ofNat 32 w))) :: s.turns }

end Sys2Proof.Machine
end

