-- ==== Sys2Proof/WellFormed.lean ====
section
/-! DEFINITION. The checks on terms: an instruction, a host access, a turn, and the parameters. -/

namespace Sys2Proof

/-- Every term of `Instr` stands for words the spec accepts: the flags are single bits (spec/30_encoding.md R91), and any
value of the ignored bits of `CTRL` is allowed (spec/10_state.md R29). So no instruction is ill-formed. -/
def Instr.wf : Instr → Bool
  | .rot90 _ => true
  | .blur5 _ _ => true
  | .srst _ => true

/-- The two checks of spec/20_memory.md R68 on a register offset: a multiple of 4, and below `0x40`. A buffer port takes
any address (R69). -/
def Machine.Access.wf : Machine.Access → Bool
  | .readReg off => off % 4 == 0 && off < 0x40
  | .writeReg off _ => off % 4 == 0 && off < 0x40
  | .readMem _ _ => true
  | .writeMem _ _ _ => true

/-- A turn is well-formed when the access it carries is. -/
def Machine.Turn.wf : Machine.Turn → Bool
  | .host (.access a) => a.wf
  | .host .poll => true
  | .host (.copyback _) => true
  | .engine => true
  | .reset => true

/-- The range of `BUF_BYTES` (spec/00_scope.md R6): `1 <= BUF_BYTES <= 2^32 - 1`. -/
def Params.wf (p : Params) : Bool := decide (1 ≤ p.bufBytes) && decide (p.bufBytes < 2 ^ 32)

end Sys2Proof
end

