-- ==== Sys2Proof/Safety.lean ====
section
/-! DEFINITION. What counts as a legal state and as a good end of a run, in the terms the statements use. -/

namespace Sys2Proof.Machine

/-- The command a word decodes to, or none for an illegal word. -/
def commandOf (w : Word) : Option Instr :=
  match decodeCmd w with
  | .command i => some i
  | .illegal _ => none

/-- `CMD` holds a legal word whose issue checks pass for the operands in `WIDTH` and `HEIGHT`
(spec/40_geometry_and_lifecycle.md R119). -/
abbrev State.accepted (s : State) : Prop := ∃ i, commandOf s.cmd = some i ∧ s.commandError (requiredOf i) = none

/-- `ERRCODE` agrees with the phase and with the refused word (spec/10_state.md R28, spec/60_exceptions.md R210, R214). -/
structure State.ErrorInv (s : State) : Prop where
  /-- 0 unless the phase is `ERR` -/
  quiet : s.phase ≠ .err → s.errcode = 0
  /-- one of the three codes in phase `ERR` -/
  coded : s.phase = .err → s.errcode = 1 ∨ s.errcode = 2 ∨ s.errcode = 3
  /-- `ERR_ILLEGAL` exactly for an illegal word in `CMD` -/
  illegalWord : s.phase = .err → (s.errcode = 1 ↔ commandOf s.cmd = none)

/-- Both memories are canonical and hold no address at or above `BUF_BYTES` (spec/20_memory.md R61, R62). -/
structure State.MemoryInv (s : State) : Prop where
  srcWf : s.src.wf
  dstWf : s.dst.wf
  srcWithin : s.src.within s.params.bufBytes
  dstWithin : s.dst.within s.params.bufBytes

/-- The result registers describe one image that fits its memory (spec/10_state.md R23,
spec/40_geometry_and_lifecycle.md R116), and are 0 before the first command (R37). -/
structure State.ResultInv (s : State) : Prop where
  size : s.outSize.toNat = s.outStride.toNat * s.outHeight.toNat
  fits : s.outSize.toNat ≤ s.params.bufBytes
  signed : 0 ≤ s.outWidth.toInt ∧ 0 ≤ s.outHeight.toInt
  idle : s.phase = .idle →
    s.cmd = 0 ∧ s.outWidth = 0 ∧ s.outHeight = 0 ∧ s.outStride = 0 ∧ s.outSize = 0
  done : s.phase = .done → (commandOf s.cmd).isSome ∧ 0 < s.outWidth.toNat ∧ 0 < s.outHeight.toNat

/-- The legal states: what holds after reset and what every step keeps. -/
structure State.Inv (s : State) : Prop where
  params : s.params.wf
  error : s.ErrorInv
  memory : s.MemoryInv
  result : s.ResultInv
  /-- in `BUSY` the command in flight is one that issue has accepted (spec/40_geometry_and_lifecycle.md R120) -/
  busy : s.phase = .busy → s.accepted

/-- A turn that resets the engine: the reset input, or a `CTRL` write with bit 0 set (spec/70_reset_and_hazards.md R241:
"There is no other cause of reset"). -/
def Turn.resets : Turn → Bool
  | .reset => true
  | .engine => false
  | .host (.access (.writeReg off v)) => off == 0x10 && v.getLsbD 0
  | .host (.access (.readReg _)) => false
  | .host (.access (.readMem _ _)) => false
  | .host (.access (.writeMem _ _ _)) => false
  | .host .poll => false
  | .host (.copyback _) => false

/-- The two accesses a host may make in phase `BUSY`: a `STATUS` read and a `CTRL` write (spec/70_reset_and_hazards.md R247). -/
def Access.allowedInBusy : Access → Bool
  | .readReg off => off == 0x0C
  | .writeReg off _ => off == 0x10
  | .readMem _ _ => false
  | .writeMem _ _ _ => false

/-- The one access a host turn makes, where it makes one: `POLL` makes a `STATUS` read, a `COPYBACK` its next access. -/
def Turn.access? : Turn → Option Access
  | .host (.access a) => some a
  | .host .poll => some (.readReg 0x0C)
  | .host (.copyback k) => some (copyAccess k)
  | .engine => none
  | .reset => none

/-- The SRC bytes a command reads (spec/20_memory.md R75): every pixel byte, or none for a `BLUR5` with `BORDER` = 0 whose
image has no interior. -/
def footprint (i : Instr) (W H a : Nat) : Prop :=
  ∃ pack x y c, x < W ∧ y < H ∧ c < 3 ∧ a = addr (stride W pack) x y c ∧
    (i = .rot90 pack ∨ i = .blur5 true pack ∨ (i = .blur5 false pack ∧ 5 ≤ W ∧ 5 ≤ H))

/-- `t` is in flight with the same `ROT90` as `s`, on the image that the completion of `s` leaves in DST, moved to SRC and the
new dimensions written: `ROT90` then `COPYBACK` (spec/41_rot90.md R149, spec/30_encoding.md R100). -/
structure State.RotatedInto (s t : State) : Prop where
  moved : ∃ d, engineTurn s = .next d ∧ t.width = d.outWidth ∧ t.height = d.outHeight ∧
    ∀ a, a < d.outSize.toNat → t.src.read? a = d.dst.read? a
  sameCommand : t.cmd = s.cmd
  sameParams : t.params = s.params
  inFlight : t.phase = .busy

/-- A run has ended well (spec/70_reset_and_hazards.md R255): the host has nothing left to do, the phase is `IDLE` or `DONE`,
and `HZD` is 0. -/
abbrev State.endedWell (s : State) : Prop := s.turns = [] ∧ (s.phase = .idle ∨ s.phase = .done) ∧ s.hzd = false

/-- A faulted end (R255). DESIGN CHOICE, log entry 17: a state in `BUSY` with `HZD` = 1, which R255 calls both no end and a
faulted end, is no end here; and the empty list of turns, which R255 asks of a good end only, is asked here too. -/
abbrev State.endedFaulted (s : State) : Prop := s.turns = [] ∧ s.phase ≠ .busy ∧ (s.phase = .err ∨ s.hzd = true)

/-- The pixel byte at `(x, y)`, channel `c`, of an image of stride `S` in a memory (spec/20_memory.md R63). -/
def Memory.pixel? (m : Memory) (S x y c : Nat) : Option Byte := m.read? (addr S x y c)

end Sys2Proof.Machine
end

