-- ==== Sys2Proof/Certificates/Slice0/Obligations.lean ====
section
/-! DEFINITION. The statements about the model, for the provers. In each, `s` with a list of turns put in front stands for a
machine about to make that turn; `.next { s with ... }` says the whole next state, so what is not named is unchanged. -/

open Sys2Proof Sys2Proof.Machine

/-! ### Encoding -/

/-- Decode and encode agree on every instruction, at every value of every operand (R91, R92, R29); an encoding determines its
instruction. -/
def Obligations.DecodeOfEncodeIsTheInstruction : Prop :=
  (∀ i : Instr, i.wf = true → decodeWrite (encodeOffset i) (encode i) = some i) ∧
  (∀ i j : Instr, encodeAccess i = encodeAccess j → i = j) ∧
  (∀ (off : Nat) (v : Word) (i : Instr), decodeWrite off v = some i → encodeAccess i = .writeReg off v)

/-- R92: the six legal command words, what each is, that no other word is accepted, and the two match and mask pairs. -/
def Obligations.CommandWordsAreExactlySix : Prop :=
  decodeCmd 0x00000001 = .command (.rot90 false) ∧
  decodeCmd 0x00000021 = .command (.rot90 true) ∧
  decodeCmd 0x00000002 = .command (.blur5 false false) ∧
  decodeCmd 0x00000012 = .command (.blur5 true false) ∧
  decodeCmd 0x00000022 = .command (.blur5 false true) ∧
  decodeCmd 0x00000032 = .command (.blur5 true true) ∧
  (∀ v : Word, (∃ why, decodeCmd v = .illegal why) ↔
    v ∉ [0x00000001#32, 0x00000021#32, 0x00000002#32, 0x00000012#32, 0x00000022#32, 0x00000032#32]) ∧
  (∀ v : Word, (∃ pack, decodeCmd v = .command (.rot90 pack)) ↔ v &&& 0xFFFFFFDF#32 = 0x00000001#32) ∧
  (∀ v : Word, (∃ border pack, decodeCmd v = .command (.blur5 border pack)) ↔ v &&& 0xFFFFFFCF#32 = 0x00000002#32)

/-- R96, with the bit fields as quotients and remainders of the word's number: 31:6 is `n / 64`, `PACK` is `n / 32 % 2`,
`BORDER` is `n / 16 % 2`, `OP` is `n % 16`. -/
def Obligations.DecodeFollowsTheBitFields : Prop :=
  ∀ v : Word,
    (v.toNat / 64 ≠ 0 → ∃ why, decodeCmd v = .illegal why) ∧
    (v.toNat / 64 = 0 → v.toNat % 16 = 1 → v.toNat / 16 % 2 = 0 →
      decodeCmd v = .command (.rot90 (v.toNat / 32 % 2 == 1))) ∧
    (v.toNat / 64 = 0 → v.toNat % 16 = 1 → v.toNat / 16 % 2 = 1 → ∃ why, decodeCmd v = .illegal why) ∧
    (v.toNat / 64 = 0 → v.toNat % 16 = 2 →
      decodeCmd v = .command (.blur5 (v.toNat / 16 % 2 == 1) (v.toNat / 32 % 2 == 1))) ∧
    (v.toNat / 64 = 0 → v.toNat % 16 ≠ 1 → v.toNat % 16 ≠ 2 → ∃ why, decodeCmd v = .illegal why)

/-- R97: which words are illegal, and that issuing one raises `ERR_ILLEGAL` and changes neither DST nor an `OUT_*` register. -/
def Obligations.IllegalWordsRaiseErrIllegal : Prop :=
  (∀ v : Word, (∃ why, decodeCmd v = .illegal why) ↔
    v.toNat / 64 ≠ 0 ∨ v.toNat % 16 = 0 ∨ 3 ≤ v.toNat % 16 ∨ v = 0x00000011#32 ∨ v = 0x00000031#32) ∧
  (∀ (s : State) (rest : List Turn) (v : Word), s.phase = .idle ∨ s.phase = .done →
    (∃ why, decodeCmd v = .illegal why) →
    step { s with turns := .host (.access (.writeReg 0x08 v)) :: rest } =
      .next { s with turns := rest, cmd := v, phase := .err, errcode := 1 })

/-- A few words written out bit by bit from R91 and R29 decode to the instructions they stand for. -/
def Obligations.WrittenOutWordsDecode : Prop :=
  decodeWrite 0x08 0b00000000000000000000000000000001#32 = some (.rot90 false) ∧
  decodeWrite 0x08 0b00000000000000000000000000100001#32 = some (.rot90 true) ∧
  decodeWrite 0x08 0b00000000000000000000000000010010#32 = some (.blur5 true false) ∧
  decodeWrite 0x08 0b00000000000000000000000000100010#32 = some (.blur5 false true) ∧
  decodeWrite 0x08 0b00000000000000000000000000010001#32 = none ∧
  decodeWrite 0x10 0b10000000000000000000000000000001#32 = some (.srst 0x40000000#31) ∧
  decodeWrite 0x10 0b00000000000000000000000000000010#32 = none

/-- The bytes of a step: a register write that carries an instruction runs it, on the state with the turn taken off. -/
def Obligations.StepRunsTheDecodedInstruction : Prop :=
  ∀ (s : State) (rest : List Turn) (off : Nat) (v : Word) (i : Instr), decodeWrite off v = some i →
    step { s with turns := .host (.access (.writeReg off v)) :: rest } = exec i { s with turns := rest }

/-! ### Geometry -/

/-- R110, R114: `rowSize`, with R111's two cases of `stride`. -/
def Obligations.RowSizeIsTheLeastMultipleOfFour : Prop :=
  ∀ w : Nat,
    rowSize w = (3 * w + 3) / 4 * 4 ∧ rowSize w = 3 * w + w % 4 ∧ rowSize w % 4 = 0 ∧
    3 * w ≤ rowSize w ∧ rowSize w ≤ 3 * w + 3 ∧ (∀ n, n % 4 = 0 → 3 * w ≤ n → rowSize w ≤ n) ∧
    stride w false = rowSize w ∧ stride w true = 3 * w ∧ (w % 4 = 0 → stride w false = stride w true)

/-- R113: the address of a pixel byte, its bound, the packed form; and two pixel bytes of one image never share an address. -/
def Obligations.PixelAddressesStayInsideAndApart : Prop :=
  (∀ S x y c, addr S x y c = y * S + 3 * x + c) ∧
  (∀ w h x y c S, 3 * w ≤ S → x < w → y < h → c ≤ 2 →
    addr S x y c ≤ (h - 1) * S + 3 * w - 1 ∧ (h - 1) * S + 3 * w - 1 < S * h) ∧
  (∀ w x y c, addr (stride w true) x y c = 3 * (y * w + x) + c) ∧
  (∀ w S x y c x' y' c', 3 * w ≤ S → x < w → x' < w → c ≤ 2 → c' ≤ 2 →
    addr S x y c = addr S x' y' c' → x = x' ∧ y = y' ∧ c = c')

/-- R117: the interior predicate, when the interior is empty, and how many pixels it and the border have. -/
def Obligations.InteriorIsARectangle : Prop :=
  ∀ W H : Nat,
    (∀ x y : Nat, interiorPixel x y W H ↔ (2 ≤ x ∧ (x : Int) < W - 2 ∧ 2 ≤ y ∧ (y : Int) < H - 2)) ∧
    (W ≤ 4 ∨ H ≤ 4 → ∀ x y, ¬ interiorPixel x y W H) ∧
    ((Finset.range W ×ˢ Finset.range H).filter fun p => interiorPixel p.1 p.2 W H).card = (W - 4) * (H - 4) ∧
    ((Finset.range W ×ˢ Finset.range H).filter fun p => ¬ interiorPixel p.1 p.2 W H).card =
      W * H - (W - 4) * (H - 4)

/-- R7: the printed table, its sum and its symmetries. -/
def Obligations.PrintedKernelSumsTo987 : Prop :=
  (List.finRange 5).map (fun j => (List.finRange 5).map (Kernel.weight Config.kernel j)) =
    [[3, 13, 22, 13, 3], [13, 59, 97, 59, 13], [22, 97, 159, 97, 22], [13, 59, 97, 59, 13], [3, 13, 22, 13, 3]] ∧
  (∑ j : Fin 5, ∑ i : Fin 5, Kernel.weight Config.kernel j i) = 987 ∧
  (∀ j i : Fin 5, Kernel.weight Config.kernel j i = Kernel.weight Config.kernel i j) ∧
  (∀ j i : Fin 5, Kernel.weight Config.kernel j i = Kernel.weight Config.kernel (4 - j) i) ∧
  (∀ j i : Fin 5, Kernel.weight Config.kernel j i = Kernel.weight Config.kernel j (4 - i))

/-! ### Issue -/

/-- R118, R119, R214, R215: a `CMD` write in `IDLE` or `DONE` stores the word and checks it in the fixed order: decode,
geometry, size. A refusal changes the phase and `ERRCODE` and nothing else; an acceptance changes the phase only. -/
def Obligations.IssueChecksInTheirOrder : Prop :=
  ∀ (s : State) (rest : List Turn) (v : Word), s.phase = .idle ∨ s.phase = .done →
    let now : State := { s with turns := .host (.access (.writeReg 0x08 v)) :: rest }
    let stored : State := { s with turns := rest, cmd := v }
    let W := s.width.toInt
    let H := s.height.toInt
    (commandOf v = none → step now = .next { stored with phase := .err, errcode := 1 }) ∧
    ((commandOf v).isSome → W ≤ 0 ∨ H ≤ 0 → step now = .next { stored with phase := .err, errcode := 2 }) ∧
    (0 < W → 0 < H →
      (∀ pack, commandOf v = some (.rot90 pack) →
        let need := max (stride W.toNat pack * H.toNat) (stride H.toNat pack * W.toNat)
        (s.params.bufBytes < need → step now = .next { stored with phase := .err, errcode := 3 }) ∧
        (need ≤ s.params.bufBytes → step now = .next { stored with phase := .busy })) ∧
      (∀ border pack, commandOf v = some (.blur5 border pack) →
        let need := stride W.toNat pack * H.toNat
        (s.params.bufBytes < need → step now = .next { stored with phase := .err, errcode := 3 }) ∧
        (need ≤ s.params.bufBytes → step now = .next { stored with phase := .busy })))

/-- R210: an error arises at a `CMD` write in `IDLE` or `DONE` and at no other step, with the code of its cause and the
`STATUS` of the table; `CMD` holds the refused word and the operands are kept. -/
def Obligations.ErrorsAriseOnlyAtCommandWrites : Prop :=
  ∀ s t : State, step s = .next t → s.phase ≠ .err → t.phase = .err →
    (s.phase = .idle ∨ s.phase = .done) ∧ t.hzd = s.hzd ∧ t.width = s.width ∧ t.height = s.height ∧
    ∃ v rest, s.turns = .host (.access (.writeReg 0x08 v)) :: rest ∧ t.cmd = v ∧
      ((t.errcode = 1 ∧ commandOf v = none ∧ t.statusWord = if s.hzd then 0x1C else 0x14) ∨
       (t.errcode = 2 ∧ (commandOf v).isSome ∧ (s.width.toInt ≤ 0 ∨ s.height.toInt ≤ 0) ∧
         t.statusWord = if s.hzd then 0x2C else 0x24) ∨
       (t.errcode = 3 ∧ 0 < s.width.toInt ∧ 0 < s.height.toInt ∧
         (∃ i f, commandOf v = some i ∧ requiredOf i = some f ∧
           s.params.bufBytes < f s.width.toInt.toNat s.height.toInt.toNat) ∧
         t.statusWord = if s.hzd then 0x3C else 0x34))

/-- R116: no geometry value wraps, and after the size check every value fits its register; so an image whose exact size needs
33 bits or more is refused whatever `BUF_BYTES` is. -/
def Obligations.SizeCheckNeverWraps : Prop :=
  ∀ (s : State) (pack : Bool), s.params.wf = true → 0 < s.width.toInt → 0 < s.height.toInt →
    let W := s.width.toInt.toNat
    let H := s.height.toInt.toNat
    stride W pack < 2 ^ 33 ∧ bufSize W H pack < 2 ^ 64 ∧
    (bufSize W H pack ≤ s.params.bufBytes → stride W pack < 2 ^ 32 ∧ bufSize W H pack < 2 ^ 32) ∧
    (2 ^ 32 ≤ bufSize W H pack → s.phase = .idle ∨ s.phase = .done →
      ∀ border, exec (.blur5 border pack) s =
        .next { s with cmd := encode (.blur5 border pack), phase := .err, errcode := 3 })

/-- R25, R191, R216: a `CMD` write in `BUSY` is dropped and sets `HZD`; in `ERR` it is dropped and changes nothing. -/
def Obligations.CommandWriteIsDroppedInBusyAndErr : Prop :=
  ∀ (s : State) (rest : List Turn) (v : Word),
    (s.phase = .busy → step { s with turns := .host (.access (.writeReg 0x08 v)) :: rest } =
      .next { s with turns := rest, hzd := true }) ∧
    (s.phase = .err → step { s with turns := .host (.access (.writeReg 0x08 v)) :: rest } =
      .next { s with turns := rest })

/-! ### ROT90 -/

/-- R144, R145: `ROT90` runs. Issued in `IDLE` or `DONE` on positive dimensions that fit, it is accepted, and the engine's
turn completes it: the result registers carry the swapped dimensions, and apart from DST, `CMD` and the phase nothing else
has changed. -/
def Obligations.Rot90CompletesWithSwappedDimensions : Prop :=
  ∀ (s : State) (pack : Bool), s.phase = .idle ∨ s.phase = .done → s.params.wf = true →
    0 < s.width.toInt → 0 < s.height.toInt →
    let W := s.width.toInt.toNat
    let H := s.height.toInt.toNat
    max (stride W pack * H) (stride H pack * W) ≤ s.params.bufBytes →
    exec (.rot90 pack) s = .next { s with cmd := encode (.rot90 pack), phase := .busy } ∧
    ∃ t, engineTurn { s with cmd := encode (.rot90 pack), phase := .busy } = .next t ∧
      t = { s with
        cmd := encode (.rot90 pack), phase := .done, dst := t.dst
        outWidth := s.height, outHeight := s.width
        outStride := BitVec.ofNat 32 (stride H pack), outSize := BitVec.ofNat 32 (stride H pack * W) } ∧
      t.outStride.toNat = stride H pack ∧ t.outSize.toNat = stride H pack * W

/-- R142: from its issue to its completion, `ROT90` copies channel `c` of source pixel `(x, y)` to row `W-1-x`, column `y` of
the result; a source byte nothing has written leaves its one result byte unspecified (R244). R143 is the same map read from
the result. -/
def Obligations.Rot90MovesEveryPixel : Prop :=
  ∀ (s : State) (pack : Bool), s.phase = .idle ∨ s.phase = .done →
    0 < s.width.toInt → 0 < s.height.toInt →
    let W := s.width.toInt.toNat
    let H := s.height.toInt.toNat
    max (stride W pack * H) (stride H pack * W) ≤ s.params.bufBytes →
    ∃ t u, exec (.rot90 pack) s = .next t ∧ engineTurn t = .next u ∧ u.phase = .done ∧
      u.outWidth = s.height ∧ u.outHeight = s.width ∧
      (∀ x y c, x < W → y < H → c < 3 →
        u.dst.read? ((W - 1 - x) * stride H pack + 3 * y + c) = s.src.read? (y * stride W pack + 3 * x + c)) ∧
      (∀ x' y' c, x' < H → y' < W → c < 3 →
        u.dst.pixel? (stride H pack) x' y' c = s.src.pixel? (stride W pack) (W - 1 - y') x' c)

/-- R147: the stores of the body are a bijection onto the result's pixel bytes: no address is stored to twice, and the
addresses stored to are exactly those of the pixels of an `H` by `W` image. -/
def Obligations.Rot90StoresAreABijection : Prop :=
  ∀ (pack : Bool) (W H : Nat) (src : Memory),
    ((rot90Writes pack W H src).map Prod.fst).Nodup ∧
    (∀ a, a ∈ (rot90Writes pack W H src).map Prod.fst ↔
      ∃ x' y' c, x' < H ∧ y' < W ∧ c < 3 ∧ a = addr (stride H pack) x' y' c)

/-- R149: two rotations, each followed by `COPYBACK` with the same flag, turn the image by a half turn, and four bring back
every pixel byte and both dimensions; padding bytes come back as 0. What a `COPYBACK` leaves is said by `State.RotatedInto`;
that its own steps lead there is CopybackMovesTheResult. -/
def Obligations.FourRotationsReturnEveryPixel : Prop :=
  ∀ (s0 s1 s2 s3 s4 : State) (pack : Bool), s0.params.wf = true → s0.phase = .busy →
    commandOf s0.cmd = some (.rot90 pack) → s0.commandError (requiredOf (.rot90 pack)) = none →
    s0.RotatedInto s1 → s1.RotatedInto s2 → s2.RotatedInto s3 → s3.RotatedInto s4 →
    let W := s0.width.toInt.toNat
    let H := s0.height.toInt.toNat
    s2.width = s0.width ∧ s2.height = s0.height ∧ s4.width = s0.width ∧ s4.height = s0.height ∧
    (∀ x y c, x < W → y < H → c < 3 →
      s2.src.pixel? (stride W pack) (W - 1 - x) (H - 1 - y) c = s0.src.pixel? (stride W pack) x y c ∧
      s4.src.pixel? (stride W pack) x y c = s0.src.pixel? (stride W pack) x y c) ∧
    (∀ a, a < stride W pack * H → (∀ x y c, x < W → y < H → c < 3 → a ≠ addr (stride W pack) x y c) →
      s4.src.read? a = some 0)

/-! ### BLUR5 -/

/-- R168, R173: `BLUR5` runs. Issued in `IDLE` or `DONE` on positive dimensions that fit, it is accepted, and the engine's turn
completes it with the same dimensions; apart from DST, `CMD`, the result registers and the phase nothing has changed. -/
def Obligations.Blur5CompletesWithSameDimensions : Prop :=
  ∀ (s : State) (border pack : Bool), s.phase = .idle ∨ s.phase = .done → s.params.wf = true →
    0 < s.width.toInt → 0 < s.height.toInt →
    let W := s.width.toInt.toNat
    let H := s.height.toInt.toNat
    stride W pack * H ≤ s.params.bufBytes →
    exec (.blur5 border pack) s = .next { s with cmd := encode (.blur5 border pack), phase := .busy } ∧
    ∃ t, engineTurn { s with cmd := encode (.blur5 border pack), phase := .busy } = .next t ∧
      t = { s with
        cmd := encode (.blur5 border pack), phase := .done, dst := t.dst
        outWidth := s.width, outHeight := s.height
        outStride := BitVec.ofNat 32 (stride W pack), outSize := BitVec.ofNat 32 (stride W pack * H) } ∧
      t.outStride.toNat = stride W pack ∧ t.outSize.toNat = stride W pack * H

/-- R163, R164, R165: an interior byte is the exact weighted sum of the same channel over the 5x5 window, divided by 1000 and
taken mod 256, whatever the kernel; it depends on nothing but its window, and an unwritten byte in its window leaves it
unspecified (R244). -/
def Obligations.Blur5InteriorIsTheWeightedSum : Prop :=
  ∀ (s : State) (border pack : Bool), s.phase = .busy → commandOf s.cmd = some (.blur5 border pack) →
    s.commandError (requiredOf (.blur5 border pack)) = none →
    let W := s.width.toInt.toNat
    let H := s.height.toInt.toNat
    let S := stride W pack
    ∃ t, engineTurn s = .next t ∧ t.phase = .done ∧
      ∀ x y c, interiorPixel x y W H → c < 3 →
        (∀ b : Fin 5 → Fin 5 → Byte,
          (∀ j i : Fin 5, s.src.pixel? S (x + i.val - 2) (y + j.val - 2) c = some (b j i)) →
          t.dst.pixel? S x y c =
            some (BitVec.ofNat 8
              ((∑ j : Fin 5, ∑ i : Fin 5, Kernel.weight s.params.kernel j i * (b j i).toNat) / 1000 % 256))) ∧
        (∀ j i : Fin 5, s.src.pixel? S (x + i.val - 2) (y + j.val - 2) c = none → t.dst.pixel? S x y c = none)

/-- R166: with `BORDER` = 0 every channel of every border pixel of the result is 0, whatever the source holds. -/
def Obligations.Blur5ZeroBorderIsBlack : Prop :=
  ∀ (s : State) (pack : Bool), s.phase = .busy → commandOf s.cmd = some (.blur5 false pack) →
    s.commandError (requiredOf (.blur5 false pack)) = none →
    let W := s.width.toInt.toNat
    let H := s.height.toInt.toNat
    ∃ t, engineTurn s = .next t ∧
      ∀ x y c, x < W → y < H → c < 3 → ¬ interiorPixel x y W H → t.dst.pixel? (stride W pack) x y c = some 0

/-- R167: with `BORDER` = 1 every channel of every border pixel of the result is the source's, and the interior is what
`BORDER` = 0 computes. -/
def Obligations.Blur5PassBorderIsTheSource : Prop :=
  ∀ (s : State) (pack : Bool), s.phase = .busy → commandOf s.cmd = some (.blur5 true pack) →
    s.commandError (requiredOf (.blur5 true pack)) = none →
    let W := s.width.toInt.toNat
    let H := s.height.toInt.toNat
    ∃ t u, engineTurn s = .next t ∧ engineTurn { s with cmd := encode (.blur5 false pack) } = .next u ∧
      (∀ x y c, x < W → y < H → c < 3 → ¬ interiorPixel x y W H →
        t.dst.pixel? (stride W pack) x y c = s.src.pixel? (stride W pack) x y c) ∧
      (∀ x y c, c < 3 → interiorPixel x y W H →
        t.dst.pixel? (stride W pack) x y c = u.dst.pixel? (stride W pack) x y c)

/-- R169: with the printed kernel a sum is at most 251685, its quotient at most 251, and the wrap never fires. -/
def Obligations.PrintedKernelNeverWraps : Prop :=
  (∀ (src : Memory) (S x y c acc : Nat), windowSum Config.kernel src S x y c = some acc →
    acc ≤ 987 * 255 ∧ acc / 1000 ≤ 251 ∧ acc / 1000 % 256 = acc / 1000 ∧ (narrow acc).toNat = acc / 1000) ∧
  ∃ src S x y c, windowSum Config.kernel src S x y c = some (987 * 255)

/-- R171: a window whose 25 bytes are all `v` gives `(987 * v) div 1000` with the printed kernel. -/
def Obligations.UniformWindowGives987Thousandths : Prop :=
  (∀ (src : Memory) (S x y c : Nat) (v : Byte),
    (∀ j i : Fin 5, src.pixel? S (x + i.val - 2) (y + j.val - 2) c = some v) →
    (windowSum Config.kernel src S x y c).map narrow = some (BitVec.ofNat 8 (987 * v.toNat / 1000))) ∧
  [0, 1, 2, 3, 100, 127, 128, 129, 200, 254, 255].map (fun v => 987 * v / 1000) =
    [0, 0, 1, 2, 98, 125, 126, 127, 197, 250, 251]

/-- R172: the impulse response of the printed kernel, and the 25 bytes for `v` = 255. -/
def Obligations.ImpulseShowsTheKernel : Prop :=
  (∀ (s : State) (border pack : Bool) (x0 y0 c : Nat) (v : Byte), s.phase = .busy →
    commandOf s.cmd = some (.blur5 border pack) → s.commandError (requiredOf (.blur5 border pack)) = none →
    s.params.kernel = Config.kernel →
    let W := s.width.toInt.toNat
    let H := s.height.toInt.toNat
    let S := stride W pack
    x0 < W → y0 < H → c < 3 →
    (∀ x y, x < W → y < H → s.src.pixel? S x y c = some (if x = x0 ∧ y = y0 then v else 0)) →
    ∃ t, engineTurn s = .next t ∧ ∀ x y, interiorPixel x y W H →
      (∀ j i : Fin 5, x0 + 2 = x + i.val → y0 + 2 = y + j.val →
        t.dst.pixel? S x y c = some (BitVec.ofNat 8 (Kernel.weight Config.kernel j i * v.toNat / 1000))) ∧
      ((∀ j i : Fin 5, ¬ (x0 + 2 = x + i.val ∧ y0 + 2 = y + j.val)) → t.dst.pixel? S x y c = some 0)) ∧
  (List.finRange 5).map (fun j => (List.finRange 5).map fun i => Kernel.weight Config.kernel j i * 255 / 1000) =
    [[0, 3, 5, 3, 0], [3, 15, 24, 15, 3], [5, 24, 40, 24, 5], [3, 15, 24, 15, 3], [0, 3, 5, 3, 0]]

/-! ### Completion -/

/-- R122: a completion leaves 0 in every byte of the result buffer that is no pixel byte of the result (its padding), for both
commands, and leaves every byte at or beyond `OUT_SIZE` as it was. -/
def Obligations.ResultPaddingIsZeroAndTheTailIsKept : Prop :=
  ∀ (s : State) (i : Instr), s.phase = .busy → commandOf s.cmd = some i → s.commandError (requiredOf i) = none →
    ∃ t, engineTurn s = .next t ∧
      ∀ pack, (i = .rot90 pack ∨ i = .blur5 true pack ∨ i = .blur5 false pack) →
        let dims := outDims i s.width.toInt.toNat s.height.toInt.toNat
        let S := stride dims.1 pack
        (∀ a, a < S * dims.2 → (∀ x y c, x < dims.1 → y < dims.2 → c < 3 → a ≠ addr S x y c) →
          t.dst.read? a = some 0) ∧
        (∀ a, S * dims.2 ≤ a → t.dst.read? a = s.dst.read? a)

/-- R126, R75: the result of a command is a function of the command word, the dimensions, the parameters and the SRC bytes of
the read footprint: two machines that agree on these complete with the same result registers and the same bytes below
`OUT_SIZE`, whatever else they hold. -/
def Obligations.ResultDependsOnTheFootprintOnly : Prop :=
  ∀ (s s' : State) (i : Instr), s.params.wf = true → s.phase = .busy → s'.phase = .busy →
    commandOf s.cmd = some i → s.commandError (requiredOf i) = none →
    s'.cmd = s.cmd → s'.width = s.width → s'.height = s.height → s'.params = s.params →
    (∀ a, footprint i s.width.toInt.toNat s.height.toInt.toNat a → s'.src.read? a = s.src.read? a) →
    ∃ t t', engineTurn s = .next t ∧ engineTurn s' = .next t' ∧
      t'.outWidth = t.outWidth ∧ t'.outHeight = t.outHeight ∧ t'.outStride = t.outStride ∧ t'.outSize = t.outSize ∧
      ∀ a, a < t.outSize.toNat → t'.dst.read? a = t.dst.read? a

/-- R120: in `BUSY` no step but a reset changes `WIDTH`, `HEIGHT`, `CMD` or a byte of SRC. -/
def Obligations.OperandsAreStableInBusy : Prop :=
  ∀ s t : State, step s = .next t → s.phase = .busy → (∀ turn ∈ s.turns.head?, turn.resets = false) →
    t.width = s.width ∧ t.height = s.height ∧ t.cmd = s.cmd ∧ t.src = s.src

/-- R127: neither the issue nor the completion of a command changes SRC, `WIDTH` or `HEIGHT`. -/
def Obligations.CommandsLeaveTheSourceAlone : Prop :=
  (∀ (i : Instr) (s t : State), (requiredOf i).isSome → exec i s = .next t →
    t.src = s.src ∧ t.width = s.width ∧ t.height = s.height ∧ t.dst = s.dst) ∧
  (∀ s t : State, engineTurn s = .next t → t.src = s.src ∧ t.width = s.width ∧ t.height = s.height)

/-- R61, R194: a byte of SRC changes only by a host store to it outside `BUSY`, or by hardware reset. -/
def Obligations.SourceChangesOnlyByHostStores : Prop :=
  ∀ (s t : State) (a : Nat), step s = .next t → t.src.read? a ≠ s.src.read? a →
    s.turns.head? = some .reset ∨
    ∃ turn v, s.turns.head? = some turn ∧ turn.access? = some (.writeMem .src a v) ∧ s.phase ≠ .busy ∧
      a < s.params.bufBytes ∧ t.src.read? a = some v

/-- R219: `HZD` disturbs nothing: with it set, the completion is the same but for the flag, and a command is issued as
without it. -/
def Obligations.HazardFlagDisturbsNoCommand : Prop :=
  (∀ s t : State, engineTurn s = .next t → engineTurn { s with hzd := true } = .next { t with hzd := true }) ∧
  (∀ (i : Instr) (s t : State), (requiredOf i).isSome → exec i s = .next t →
    exec i { s with hzd := true } = .next { t with hzd := true })

/-! ### Host accesses -/

/-- R190: register reads, by register and phase. -/
def Obligations.RegisterReadsByPhase : Prop :=
  ∀ (s : State) (rest : List Turn) (off : Nat),
    let now : State := { s with turns := .host (.access (.readReg off)) :: rest }
    (s.phase ≠ .busy → ∀ v,
      (off, v) ∈ [(0x00, s.width), (0x04, s.height), (0x08, s.cmd), (0x0C, s.statusWord), (0x10, 0#32),
        (0x14, s.outWidth), (0x18, s.outHeight), (0x1C, s.outStride), (0x20, s.outSize),
        (0x24, 0#32), (0x28, 0#32), (0x2C, 0#32), (0x30, 0#32), (0x34, 0#32), (0x38, 0#32), (0x3C, 0#32)] →
      step now = .next { s with turns := rest, reads := v :: s.reads }) ∧
    (s.phase = .busy → off = 0x0C →
      step now = .next { s with turns := rest, reads := s.statusWord :: s.reads } ∧ s.statusWord.getLsbD 0 = true) ∧
    (s.phase = .busy → off ∈ [0x10, 0x24, 0x28, 0x2C, 0x30, 0x34, 0x38, 0x3C] →
      step now = .next { s with turns := rest, reads := 0 :: s.reads, hzd := true }) ∧
    (s.phase = .busy → off ∈ [0x00, 0x04, 0x08, 0x14, 0x18, 0x1C, 0x20] →
      ∃ v, step now = .next { s with turns := rest, reads := v :: s.reads, draws := s.draws + 1, hzd := true })

/-- R191: register writes, by register and phase. What `issueNow` does is IssueChecksInTheirOrder's to say, and what `softReset`
does SoftResetClearsAllButTheMemories'. -/
def Obligations.RegisterWritesByPhase : Prop :=
  ∀ (s : State) (rest : List Turn) (off : Nat) (v : Word),
    let now : State := { s with turns := .host (.access (.writeReg off v)) :: rest }
    (s.phase ≠ .busy → off = 0x00 → step now = .next { s with turns := rest, width := v }) ∧
    (s.phase ≠ .busy → off = 0x04 → step now = .next { s with turns := rest, height := v }) ∧
    (s.phase ≠ .busy → off ∈ [0x0C, 0x14, 0x18, 0x1C, 0x20, 0x24, 0x28, 0x2C, 0x30, 0x34, 0x38, 0x3C] →
      step now = .next { s with turns := rest }) ∧
    (s.phase = .idle ∨ s.phase = .done → off = 0x08 →
      step now = .next (issueNow v ((commandOf v).bind requiredOf) { s with turns := rest })) ∧
    (s.phase = .err → off = 0x08 → step now = .next { s with turns := rest }) ∧
    (off = 0x10 → v.getLsbD 0 = true → step now = .next (softReset { s with turns := rest })) ∧
    (off = 0x10 → v.getLsbD 0 = false → step now = .next { s with turns := rest }) ∧
    (s.phase = .busy →
      off ∈ [0x00, 0x04, 0x08, 0x0C, 0x14, 0x18, 0x1C, 0x20, 0x24, 0x28, 0x2C, 0x30, 0x34, 0x38, 0x3C] →
      step now = .next { s with turns := rest, hzd := true })

/-- R193, R69: port reads. -/
def Obligations.PortReadsByPhase : Prop :=
  ∀ (s : State) (rest : List Turn) (space : Space) (a : Nat),
    let now : State := { s with turns := .host (.access (.readMem space a)) :: rest }
    (∀ b : Byte, s.phase ≠ .busy → a < s.params.bufBytes → (s.mem space).read? a = some b →
      step now = .next { s with turns := rest, reads := b.setWidth 32 :: s.reads }) ∧
    (s.phase ≠ .busy → (s.params.bufBytes ≤ a ∨ (s.mem space).read? a = none) →
      ∃ b : Byte, step now = .next { s with turns := rest, reads := b.setWidth 32 :: s.reads, draws := s.draws + 1 }) ∧
    (s.phase = .busy →
      ∃ b : Byte, step now =
        .next { s with turns := rest, reads := b.setWidth 32 :: s.reads, draws := s.draws + 1, hzd := true })

/-- R194, R69: port writes. A store outside `BUSY` at an address in range sets that byte of that space and no other byte of
either space; else it is dropped, and in `BUSY` it sets `HZD`. -/
def Obligations.PortWritesByPhase : Prop :=
  ∀ (s : State) (rest : List Turn) (space : Space) (a : Nat) (v : Byte),
    let now : State := { s with turns := .host (.access (.writeMem space a v)) :: rest }
    (s.phase ≠ .busy → a < s.params.bufBytes →
      ∃ t, step now = .next t ∧
        t = { s with turns := rest, src := t.src, dst := t.dst } ∧
        ∀ space' b, (t.mem space').read? b =
          if space' = space ∧ b = a then some v else (s.mem space').read? b) ∧
    (s.phase ≠ .busy → s.params.bufBytes ≤ a → step now = .next { s with turns := rest }) ∧
    (s.phase = .busy → step now = .next { s with turns := rest, hzd := true })

/-- R247: in `BUSY` a `STATUS` read and a `CTRL` write do not set `HZD`; every other access sets it and has no other effect on
the engine: registers, phase and both memories are as before, and the command in flight completes with the same result. -/
def Obligations.BusyAccessesOnlySetHazard : Prop :=
  ∀ (s : State) (rest : List Turn) (a : Access), s.phase = .busy → a.wf = true →
    let now : State := { s with turns := .host (.access a) :: rest }
    ∃ t, step now = .next t ∧
      (a.allowedInBusy = true → t.hzd = true → s.hzd = true) ∧
      (a.allowedInBusy = false →
        t = { s with turns := rest, hzd := true, reads := t.reads, draws := t.draws } ∧
        (∀ off v, a = .writeReg off v → t.reads = s.reads) ∧ (∀ space b v, a = .writeMem space b v → t.reads = s.reads) ∧
        (∀ off, a = .readReg off → regAt off = some .ctrl ∨ regAt off = some .reserved → t.reads = 0 :: s.reads) ∧
        ∀ u, engineTurn s = .next u →
          engineTurn t = .next { u with turns := rest, hzd := true, reads := t.reads, draws := t.draws })

/-- R68: a register access at an offset that is no multiple of 4, or not below `0x40`, has no step; at every other offset
there is one. -/
def Obligations.RegisterAccessNeedsAnAlignedOffset : Prop :=
  ∀ (s : State) (rest : List Turn) (off : Nat) (v : Word),
    (off % 4 ≠ 0 ∨ 0x40 ≤ off →
      step { s with turns := .host (.access (.readReg off)) :: rest } = .refused (.noSuchRegister off) ∧
      step { s with turns := .host (.access (.writeReg off v)) :: rest } = .refused (.noSuchRegister off)) ∧
    (off % 4 = 0 → off < 0x40 →
      (∃ t, step { s with turns := .host (.access (.readReg off)) :: rest } = .next t) ∧
      (∃ t, step { s with turns := .host (.access (.writeReg off v)) :: rest } = .next t))

/-- R28: the bits of `STATUS`, in every legal state. -/
def Obligations.StatusShowsPhaseHazardAndCode : Prop :=
  ∀ s : State, s.Inv →
    (s.statusWord.getLsbD 0 = true ↔ s.phase = .busy) ∧
    (s.statusWord.getLsbD 1 = true ↔ s.phase = .done) ∧
    (s.statusWord.getLsbD 2 = true ↔ s.phase = .err) ∧
    s.statusWord.getLsbD 3 = s.hzd ∧
    s.statusWord.extractLsb' 4 4 = s.errcode ∧
    (s.phase ≠ .err → s.statusWord.extractLsb' 4 4 = 0) ∧
    s.statusWord.extractLsb' 8 24 = 0 ∧
    (s.statusWord.extractLsb' 0 3 = 0 ↔ s.phase = .idle)

/-- `LOAD` (R100) outside `BUSY`: after its stores, byte `a` of SRC is the `a`-th byte of the list, and nothing else has
changed. -/
def Obligations.LoadFillsTheSource : Prop :=
  ∀ (s : State) (bytes : List Byte) (rest : List Turn), s.phase ≠ .busy → bytes.length ≤ s.params.bufBytes →
    ∃ t, Host.Core.run core bytes.length { s with turns := loadTurns 0 bytes ++ rest } = .next t ∧
      t = { s with turns := rest, src := t.src } ∧
      ∀ a, t.src.read? a = if h : a < bytes.length then some bytes[a] else s.src.read? a

/-- `DUMP` (R100) outside `BUSY`, over bytes that are defined: the host reads exactly these bytes, in order, and nothing else
changes. -/
def Obligations.DumpReadsTheResult : Prop :=
  ∀ (s : State) (bytes : List Byte) (rest : List Turn), s.phase ≠ .busy → bytes.length ≤ s.params.bufBytes →
    (∀ (a : Nat) (h : a < bytes.length), s.dst.read? a = some bytes[a]) →
    Host.Core.run core bytes.length { s with turns := dumpTurns bytes.length ++ rest } =
      .next { s with turns := rest, reads := (bytes.map fun b => b.setWidth 32).reverse ++ s.reads }

/-- `COPYBACK` (R100, R200) in `DONE`: it ends, every defined byte of the result is in SRC at its address, the bytes of SRC
beyond the result are kept, and `WIDTH` and `HEIGHT` are the result's dimensions. -/
def Obligations.CopybackMovesTheResult : Prop :=
  ∀ (s : State) (rest : List Turn), s.Inv → s.phase = .done →
    ∃ k t, Host.Core.run core k { s with turns := .host (.copyback .size) :: rest } = .next t ∧
      t = { s with
        turns := rest, width := s.outWidth, height := s.outHeight, src := t.src, reads := t.reads, draws := t.draws } ∧
      (∀ a b, a < s.outSize.toNat → s.dst.read? a = some b → t.src.read? a = some b) ∧
      (∀ a, s.outSize.toNat ≤ a → t.src.read? a = s.src.read? a)

/-- R196: after an accepted `CMD` write `POLL` ends with a `STATUS` read that shows `DONE`; after a refused one it shows
`ERR`. That `POLL` in `BUSY` takes the completion is U10's treatment (log entry 8). -/
def Obligations.PollAfterCommandShowsDoneOrErr : Prop :=
  ∀ (s : State) (rest : List Turn) (i : Instr), s.phase = .idle ∨ s.phase = .done → (requiredOf i).isSome →
    ∃ k t, Host.Core.run core k
        { s with turns := .host (.access (encodeAccess i)) :: .host .poll :: rest } = .next t ∧
      t.turns = rest ∧ t.reads = t.statusWord :: s.reads ∧
      (s.commandError (requiredOf i) = none → t.phase = .done) ∧
      (∀ e, s.commandError (requiredOf i) = some e → t.phase = .err ∧ t.errcode = e.code)

/-! ### Reset -/

/-- R195: `SRST` in every phase, whatever bits 31:1 of the written value are; afterwards no completion is pending. Nothing
but it and the hardware reset leaves phase `ERR` or clears `HZD`. -/
def Obligations.SoftResetClearsAllButTheMemories : Prop :=
  ∀ (s : State) (ignored : BitVec 31),
    exec (.srst ignored) s =
      .next { s with
        width := 0, height := 0, cmd := 0, phase := .idle, hzd := false, errcode := 0
        outWidth := 0, outHeight := 0, outStride := 0, outSize := 0
        dst := if s.phase = .busy then [] else s.dst } ∧
    (∀ t, exec (.srst ignored) s = .next t →
      t.statusWord = 0 ∧ engineTurn t = .next t ∧ (s.phase = .busy → ∀ a, t.dst.read? a = none)) ∧
    (∀ t, step s = .next t → (s.phase = .err ∧ t.phase ≠ .err) ∨ (s.hzd = true ∧ t.hzd = false) →
      ∃ turn, s.turns.head? = some turn ∧ turn.resets = true)

/-- R240, R37: the reset input in any state: every register 0, phase `IDLE`, no byte of SRC or DST defined, `KERNEL` and
`BUF_BYTES` as before, and what the host has still to do untouched. -/
def Obligations.HardwareResetGivesTheResetState : Prop :=
  (∀ (s : State) (rest : List Turn),
    step { s with turns := .reset :: rest } =
      .next { State.resetWith s.params with turns := rest, reads := s.reads, draws := s.draws }) ∧
  (∀ p : Params,
    let r := State.resetWith p
    r.width = 0 ∧ r.height = 0 ∧ r.cmd = 0 ∧ r.phase = .idle ∧ r.statusWord = 0 ∧ r.hzd = false ∧ r.errcode = 0 ∧
    r.outWidth = 0 ∧ r.outHeight = 0 ∧ r.outStride = 0 ∧ r.outSize = 0 ∧ r.params = p ∧
    (∀ a, r.src.read? a = none) ∧ (∀ a, r.dst.read? a = none)) ∧
  State.reset.params.kernel = Config.kernel

/-- R216: phase `ERR` is sticky: no step but a reset leaves it or changes `CMD` or `ERRCODE`. -/
def Obligations.ErrIsLeftOnlyByReset : Prop :=
  ∀ s t : State, step s = .next t → s.phase = .err → (∀ turn ∈ s.turns.head?, turn.resets = false) →
    t.phase = .err ∧ t.errcode = s.errcode ∧ t.cmd = s.cmd ∧ t.hzd = s.hzd ∧
    t.outWidth = s.outWidth ∧ t.outHeight = s.outHeight ∧ t.outStride = s.outStride ∧ t.outSize = s.outSize

/-- R30: `HZD` is set only by a host access in `BUSY` other than a `STATUS` read or a `CTRL` write, and cleared only by a
reset. -/
def Obligations.HazardIsSetInBusyAndClearedByReset : Prop :=
  ∀ s t : State, step s = .next t →
    (s.hzd = false → t.hzd = true → s.phase = .busy ∧
      ∃ turn a, s.turns.head? = some turn ∧ turn.access? = some a ∧ a.allowedInBusy = false) ∧
    (s.hzd = true → t.hzd = false → ∃ turn, s.turns.head? = some turn ∧ turn.resets = true)

/-! ### The whole machine -/

/-- R26: the phase changes only along the arrows of its table. -/
def Obligations.PhaseChangesAlongItsTable : Prop :=
  ∀ s t : State, step s = .next t → s.phase ≠ t.phase →
    (t.phase = .idle ∧ ∃ turn, s.turns.head? = some turn ∧ turn.resets = true) ∨
    ((s.phase = .idle ∨ s.phase = .done) ∧ (t.phase = .busy ∨ t.phase = .err) ∧
      ∃ v, s.turns.head? = some (.host (.access (.writeReg 0x08 v)))) ∨
    (s.phase = .busy ∧ t.phase = .done ∧
      (s.turns.head? = none ∨ s.turns.head? = some .engine ∨ s.turns.head? = some (.host .poll)))

/-- R31, R36: no step changes `KERNEL` or `BUF_BYTES`. -/
def Obligations.NoStepChangesTheParameters : Prop :=
  ∀ s t : State, step s = .next t → t.params.kernel = s.params.kernel ∧ t.params.bufBytes = s.params.bufBytes

/-- The reset state is legal, whatever the parameters (R37). -/
def Obligations.ResetStateIsLegal : Prop :=
  (∀ p : Params, p.wf = true → (State.resetWith p).Inv) ∧ State.reset.Inv

/-- Every step from a legal state ends in a legal state: the memories stay canonical and inside `BUF_BYTES`, `ERRCODE` agrees
with the phase and the refused word, a command in flight is one that issue has accepted, and the result registers describe an
image that fits. -/
def Obligations.EveryStepKeepsTheInvariant : Prop :=
  ∀ s t : State, s.Inv → step s = .next t → t.Inv

/-- R121: completion cannot fail, and the only refusal is that of R68. -/
def Obligations.LegalStatesNeverFault : Prop :=
  ∀ s : State, s.Inv →
    (∀ r, step s ≠ .fault r) ∧
    (∀ r, step s = .refused r → ∃ off, r = .noSuchRegister off ∧ (off % 4 ≠ 0 ∨ 0x40 ≤ off) ∧
      ((∃ v, s.turns.head? = some (.host (.access (.writeReg off v)))) ∨
        s.turns.head? = some (.host (.access (.readReg off)))))

/-- R242: outside `BUSY` no engine step is enabled: the engine's turn changes nothing, and with no turn left the machine stays
as it is; a well-ended run (R255) stays so. What a step does with no turn left is the model's choice (log entry 2). -/
def Obligations.EngineWaitsOutsideBusy : Prop :=
  ∀ s : State, s.phase ≠ .busy →
    (∀ rest, step { s with turns := .engine :: rest } = .next { s with turns := rest }) ∧
    (s.turns = [] → step s = .next s) ∧
    (s.endedWell → ∀ k, Host.Core.run core k s = .next s)

/-- After R124: if no reset intervenes, a command in flight completes after finitely many steps, whatever the host does
meanwhile. That it completes at the latest when no turn is left is the model's choice (log entry 2, DESIGN CHOICE), which
stands in for the fairness of R124 and U10; an engine that hangs in `BUSY` is outside the model (log entry 13). -/
def Obligations.BusyEndsInDone : Prop :=
  ∀ s : State, s.Inv → s.phase = .busy → (∀ turn ∈ s.turns, turn.wf = true ∧ turn.resets = false) →
    ∃ k t, Host.Core.run core k s = .next t ∧ t.phase = .done ∧ t.cmd = s.cmd ∧ t.src = s.src
end

