-- ==== Sys2Proof/Laws/Decode.lean ====
section
/-! SUPPORT. What the decoders and the register map answer. -/

namespace Sys2Proof

theorem regAt_eq_none_iff (off : Nat) : regAt off = none ↔ off % 4 ≠ 0 ∨ 0x40 ≤ off := by
  simp only [regAt]
  split <;> simp <;> omega

@[simp] theorem regAt_cmdOffset : regAt cmdOffset = some .cmd := rfl

@[simp] theorem regAt_ctrlOffset : regAt ctrlOffset = some .ctrl := rfl

theorem decodeWrite_cmd (v : Word) : decodeWrite cmdOffset v = Machine.commandOf v := rfl

theorem decodeWrite_ctrl (v : Word) : decodeWrite ctrlOffset v = decodeCtrl v := rfl

/-- A `CMD` word never decodes to `SRST`. -/
theorem decodeCmd_ne_srst (v : Word) (r : BitVec 31) : decodeCmd v ≠ .command (.srst r) := by
  simp only [decodeCmd]
  repeat' split
  all_goals simp

/-- A write that carries an instruction goes to `CMD` and carries a command, or to `CTRL` and carries `SRST`. -/
theorem decodeWrite_cases {off : Nat} {v : Word} {i : Instr} (h : decodeWrite off v = some i) :
    (regAt off = some .cmd ∧ decodeCmd v = .command i) ∨ (regAt off = some .ctrl ∧ decodeCtrl v = some i) := by
  simp only [decodeWrite] at h
  split at h
  · rename_i hr
    split at h
    · rename_i j hd
      exact .inl ⟨hr, by rw [hd, Option.some.inj h]⟩
    · cases h
  · rename_i hr
    exact .inr ⟨hr, h⟩
  · cases h

theorem decodeCtrl_eq_some {v : Word} {i : Instr} (h : decodeCtrl v = some i) :
    v.getLsbD 0 = true ∧ i = .srst (v.extractLsb' 1 31) := by
  simp only [decodeCtrl] at h
  split at h
  · exact ⟨‹_›, (Option.some.inj h).symm⟩
  · cases h

theorem Machine.commandOf_eq_some {v : Word} {i : Instr} :
    Machine.commandOf v = some i ↔ decodeCmd v = .command i := by
  simp only [Machine.commandOf]
  split <;> simp_all

/-- The number of an encoded word: `OP` 1, and `PACK` at bit 5 (spec/30_encoding.md R91). -/
theorem encode_rot90_toNat (pack : Bool) : (encode (.rot90 pack)).toNat = 1 + 32 * pack.toNat := by
  cases pack <;> decide

/-- `OP` 2, `BORDER` at bit 4 and `PACK` at bit 5 (spec/30_encoding.md R91). -/
theorem encode_blur5_toNat (border pack : Bool) :
    (encode (.blur5 border pack)).toNat = 2 + 16 * border.toNat + 32 * pack.toNat := by
  cases border <;> cases pack <;> decide

/-- Bit 0 set, the other bits ignored (spec/10_state.md R29). -/
theorem encode_srst_toNat (ignored : BitVec 31) : (encode (.srst ignored)).toNat = 2 * ignored.toNat + 1 := by
  have h : (encode (.srst ignored)).toNat = ignored.toNat <<< 1 ||| (1#1).toNat := BitVec.toNat_append ..
  rw [h, Nat.shiftLeft_eq, Nat.mul_comm]
  exact (Nat.two_pow_add_eq_or_of_lt (i := 1) (b := 1) (by decide) ignored.toNat).symm

end Sys2Proof
end

