-- ==== Sys2Proof/Laws/Memory.lean ====
section
/-! SUPPORT. What each memory operation does to one byte, and that every one keeps the canonical form. -/

namespace Sys2Proof.Machine

@[simp] theorem Memory.read?_nil (a : Nat) : Memory.read? [] a = none := rfl

theorem Memory.read?_cons (c : Host.Cell) (m : Memory) (a : Nat) :
    Memory.read? (c :: m) a = if c.1 = a then some c.2 else Memory.read? m a := rfl

theorem Memory.read?_write (m : Memory) (a b : Nat) (v : Byte) :
    (m.write a v).read? b = if a = b then some v else m.read? b := by
  induction m with
  | nil => rfl
  | cons c m ih =>
    rcases Nat.lt_trichotomy c.1 a with h | h | h
    · simp only [Memory.write, h, if_true, Memory.read?_cons, ih]
      split
      · rw [if_neg (by omega)]
      · rfl
    · subst h
      simp only [Memory.write, Nat.lt_irrefl, if_false, if_true, Memory.read?_cons]
      split <;> rfl
    · simp only [Memory.write, Nat.lt_asymm h, Nat.ne_of_gt h, if_false, Memory.read?_cons]

theorem Memory.read?_forget (m : Memory) (a b : Nat) :
    (m.forget a).read? b = if a = b then none else m.read? b := by
  induction m with
  | nil => simp [Memory.forget]
  | cons c m ih =>
    have hf : Memory.forget (c :: m) a = if c.1 = a then Memory.forget m a else c :: Memory.forget m a := by
      by_cases h : c.1 = a <;> simp [Memory.forget, h]
    rw [hf]
    by_cases h : c.1 = a
    · subst h
      rw [if_pos rfl, ih, Memory.read?_cons]
      split <;> rfl
    · rw [if_neg h, Memory.read?_cons, Memory.read?_cons, ih]
      split
      · rw [if_neg (by omega)]
      · rfl

/-- The one law of a store: it sets its own address and no other. -/
theorem Memory.read?_put (m : Memory) (a b : Nat) (v : Option Byte) :
    (m.put a v).read? b = if a = b then v else m.read? b := by
  cases v with
  | none => exact m.read?_forget a b
  | some v => exact m.read?_write a b v

theorem Memory.mem_write {m : Memory} {a : Nat} {v : Byte} {c : Host.Cell} (h : c ∈ m.write a v) :
    c = (a, v) ∨ c ∈ m := by
  induction m with
  | nil => simpa [Memory.write] using h
  | cons d m ih =>
    simp only [Memory.write] at h
    split at h
    · rcases List.mem_cons.1 h with h | h
      · exact .inr (h ▸ List.mem_cons_self)
      · exact (ih h).imp_right (List.mem_cons_of_mem d)
    · split at h
      · exact (List.mem_cons.1 h).imp_right (List.mem_cons_of_mem d)
      · exact List.mem_cons.1 h

theorem Memory.write_wf {m : Memory} (h : m.wf) (a : Nat) (v : Byte) : (m.write a v).wf := by
  induction m with
  | nil => simp [Memory.wf, Memory.write]
  | cons c m ih =>
    obtain ⟨hc, hm⟩ := List.pairwise_cons.1 h
    simp only [Memory.write]
    split
    · refine List.pairwise_cons.2 ⟨fun d hd => ?_, ih hm⟩
      rcases Memory.mem_write hd with rfl | hd
      · assumption
      · exact hc d hd
    · split
      · rename_i h1 h2
        exact List.pairwise_cons.2 ⟨fun d hd => h2 ▸ hc d hd, hm⟩
      · rename_i h1 h2
        refine List.pairwise_cons.2 ⟨fun d hd => ?_, h⟩
        rcases List.mem_cons.1 hd with rfl | hd
        · show a < _; omega
        · have := hc d hd; show a < _; omega

theorem Memory.forget_wf {m : Memory} (h : m.wf) (a : Nat) : (m.forget a).wf := List.Pairwise.filter _ h

theorem Memory.put_wf {m : Memory} (h : m.wf) (a : Nat) (v : Option Byte) : (m.put a v).wf := by
  cases v with
  | none => exact Memory.forget_wf h a
  | some v => exact Memory.write_wf h a v

theorem Memory.writeAll_wf {m : Memory} (h : m.wf) (ws : List (Nat × Option Byte)) : (m.writeAll ws).wf := by
  induction ws generalizing m with
  | nil => exact h
  | cons w ws ih => exact ih (Memory.put_wf h w.1 w.2)

theorem Memory.write_within {m : Memory} {n a : Nat} (h : m.within n) (ha : a < n) (v : Byte) :
    (m.write a v).within n := fun c hc => by
  rcases Memory.mem_write hc with rfl | hc
  · exact ha
  · exact h c hc

theorem Memory.put_within {m : Memory} {n a : Nat} (h : m.within n) (ha : a < n) (v : Option Byte) :
    (m.put a v).within n := by
  cases v with
  | none => exact fun c hc => h c (List.mem_filter.1 hc).1
  | some v => exact Memory.write_within h ha v

theorem Memory.writeAll_within {m : Memory} {n : Nat} (h : m.within n) (ws : List (Nat × Option Byte))
    (hw : ∀ w ∈ ws, w.1 < n) : (m.writeAll ws).within n := by
  induction ws generalizing m with
  | nil => exact h
  | cons w ws ih =>
    exact ih (Memory.put_within h (hw w List.mem_cons_self) w.2) fun v hv => hw v (List.mem_cons_of_mem w hv)

@[simp] theorem Memory.writeAll_nil (m : Memory) : m.writeAll [] = m := rfl

@[simp] theorem Memory.writeAll_cons (m : Memory) (w : Nat × Option Byte) (ws : List (Nat × Option Byte)) :
    m.writeAll (w :: ws) = (m.put w.1 w.2).writeAll ws := rfl

theorem Memory.writeAll_append (m : Memory) (us ws : List (Nat × Option Byte)) :
    m.writeAll (us ++ ws) = (m.writeAll us).writeAll ws := List.foldl_append

/-- An address no store of the list names keeps its byte. -/
theorem Memory.read?_writeAll_other {ws : List (Nat × Option Byte)} {b : Nat} (h : ∀ w ∈ ws, w.1 ≠ b) (m : Memory) :
    (m.writeAll ws).read? b = m.read? b := by
  induction ws generalizing m with
  | nil => rfl
  | cons w ws ih =>
    rw [Memory.writeAll_cons, ih (fun v hv => h v (List.mem_cons_of_mem w hv)), Memory.read?_put,
      if_neg (h w List.mem_cons_self)]

/-- An address some store names, all of whose stores carry `v`, reads `v`. -/
theorem Memory.read?_writeAll_eq {ws : List (Nat × Option Byte)} {b : Nat} {v : Option Byte}
    (hmem : (b, v) ∈ ws) (hall : ∀ w ∈ ws, w.1 = b → w.2 = v) (m : Memory) :
    (m.writeAll ws).read? b = v := by
  induction ws generalizing m with
  | nil => cases hmem
  | cons w ws ih =>
    rw [Memory.writeAll_cons]
    by_cases hin : (b, v) ∈ ws
    · exact ih hin (fun u hu => hall u (List.mem_cons_of_mem w hu)) _
    · have hw : w = (b, v) := by
        rcases List.mem_cons.1 hmem with h | h
        · exact h.symm
        · exact absurd h hin
      subst hw
      rw [Memory.read?_writeAll_other, Memory.read?_put, if_pos rfl]
      intro u hu hub
      have hv : u.2 = v := hall u (List.mem_cons_of_mem _ hu) hub
      exact hin (by rw [← hub, ← hv]; exact hu)

/-- The clearing of R122: every address below `n` reads 0, every other one is kept. -/
theorem Memory.read?_writeAll_zeroWrites (m : Memory) (n b : Nat) :
    (m.writeAll (zeroWrites n)).read? b = if b < n then some 0 else m.read? b := by
  by_cases h : b < n
  · rw [if_pos h]
    refine Memory.read?_writeAll_eq (List.mem_map.2 ⟨b, List.mem_range.2 h, rfl⟩) (fun w hw _ => ?_) m
    obtain ⟨a, -, rfl⟩ := List.mem_map.1 hw
    rfl
  · rw [if_neg h]
    refine Memory.read?_writeAll_other (fun w hw => ?_) m
    obtain ⟨a, ha, rfl⟩ := List.mem_map.1 hw
    have := List.mem_range.1 ha
    show a ≠ b
    omega

theorem zeroWrites_lt {n : Nat} {w : Nat × Option Byte} (h : w ∈ zeroWrites n) : w.1 < n := by
  obtain ⟨a, ha, rfl⟩ := List.mem_map.1 h
  exact List.mem_range.1 ha

end Sys2Proof.Machine
end

