-- ==== Sys2Proof/Laws/State.lean ====
section
/-! SUPPORT. One lemma per field per update of the state, each true by rfl. -/

namespace Sys2Proof.Machine

@[simp] theorem State.markHazard_width (s : State) :
    s.markHazard.width = s.width := rfl
@[simp] theorem State.markHazard_height (s : State) :
    s.markHazard.height = s.height := rfl
@[simp] theorem State.markHazard_cmd (s : State) :
    s.markHazard.cmd = s.cmd := rfl
@[simp] theorem State.markHazard_phase (s : State) :
    s.markHazard.phase = s.phase := rfl
@[simp] theorem State.markHazard_hzd (s : State) :
    s.markHazard.hzd = true := rfl
@[simp] theorem State.markHazard_errcode (s : State) :
    s.markHazard.errcode = s.errcode := rfl
@[simp] theorem State.markHazard_outWidth (s : State) :
    s.markHazard.outWidth = s.outWidth := rfl
@[simp] theorem State.markHazard_outHeight (s : State) :
    s.markHazard.outHeight = s.outHeight := rfl
@[simp] theorem State.markHazard_outStride (s : State) :
    s.markHazard.outStride = s.outStride := rfl
@[simp] theorem State.markHazard_outSize (s : State) :
    s.markHazard.outSize = s.outSize := rfl
@[simp] theorem State.markHazard_src (s : State) :
    s.markHazard.src = s.src := rfl
@[simp] theorem State.markHazard_dst (s : State) :
    s.markHazard.dst = s.dst := rfl
@[simp] theorem State.markHazard_params (s : State) :
    s.markHazard.params = s.params := rfl
@[simp] theorem State.markHazard_turns (s : State) :
    s.markHazard.turns = s.turns := rfl
@[simp] theorem State.markHazard_reads (s : State) :
    s.markHazard.reads = s.reads := rfl
@[simp] theorem State.markHazard_draws (s : State) :
    s.markHazard.draws = s.draws := rfl

@[simp] theorem State.pushRead_width (s : State) (v : Word) :
    (s.pushRead v).width = s.width := rfl
@[simp] theorem State.pushRead_height (s : State) (v : Word) :
    (s.pushRead v).height = s.height := rfl
@[simp] theorem State.pushRead_cmd (s : State) (v : Word) :
    (s.pushRead v).cmd = s.cmd := rfl
@[simp] theorem State.pushRead_phase (s : State) (v : Word) :
    (s.pushRead v).phase = s.phase := rfl
@[simp] theorem State.pushRead_hzd (s : State) (v : Word) :
    (s.pushRead v).hzd = s.hzd := rfl
@[simp] theorem State.pushRead_errcode (s : State) (v : Word) :
    (s.pushRead v).errcode = s.errcode := rfl
@[simp] theorem State.pushRead_outWidth (s : State) (v : Word) :
    (s.pushRead v).outWidth = s.outWidth := rfl
@[simp] theorem State.pushRead_outHeight (s : State) (v : Word) :
    (s.pushRead v).outHeight = s.outHeight := rfl
@[simp] theorem State.pushRead_outStride (s : State) (v : Word) :
    (s.pushRead v).outStride = s.outStride := rfl
@[simp] theorem State.pushRead_outSize (s : State) (v : Word) :
    (s.pushRead v).outSize = s.outSize := rfl
@[simp] theorem State.pushRead_src (s : State) (v : Word) :
    (s.pushRead v).src = s.src := rfl
@[simp] theorem State.pushRead_dst (s : State) (v : Word) :
    (s.pushRead v).dst = s.dst := rfl
@[simp] theorem State.pushRead_params (s : State) (v : Word) :
    (s.pushRead v).params = s.params := rfl
@[simp] theorem State.pushRead_turns (s : State) (v : Word) :
    (s.pushRead v).turns = s.turns := rfl
@[simp] theorem State.pushRead_reads (s : State) (v : Word) :
    (s.pushRead v).reads = v :: s.reads := rfl
@[simp] theorem State.pushRead_draws (s : State) (v : Word) :
    (s.pushRead v).draws = s.draws := rfl

@[simp] theorem State.pushFreeWord_width (s : State) :
    s.pushFreeWord.width = s.width := rfl
@[simp] theorem State.pushFreeWord_height (s : State) :
    s.pushFreeWord.height = s.height := rfl
@[simp] theorem State.pushFreeWord_cmd (s : State) :
    s.pushFreeWord.cmd = s.cmd := rfl
@[simp] theorem State.pushFreeWord_phase (s : State) :
    s.pushFreeWord.phase = s.phase := rfl
@[simp] theorem State.pushFreeWord_hzd (s : State) :
    s.pushFreeWord.hzd = s.hzd := rfl
@[simp] theorem State.pushFreeWord_errcode (s : State) :
    s.pushFreeWord.errcode = s.errcode := rfl
@[simp] theorem State.pushFreeWord_outWidth (s : State) :
    s.pushFreeWord.outWidth = s.outWidth := rfl
@[simp] theorem State.pushFreeWord_outHeight (s : State) :
    s.pushFreeWord.outHeight = s.outHeight := rfl
@[simp] theorem State.pushFreeWord_outStride (s : State) :
    s.pushFreeWord.outStride = s.outStride := rfl
@[simp] theorem State.pushFreeWord_outSize (s : State) :
    s.pushFreeWord.outSize = s.outSize := rfl
@[simp] theorem State.pushFreeWord_src (s : State) :
    s.pushFreeWord.src = s.src := rfl
@[simp] theorem State.pushFreeWord_dst (s : State) :
    s.pushFreeWord.dst = s.dst := rfl
@[simp] theorem State.pushFreeWord_params (s : State) :
    s.pushFreeWord.params = s.params := rfl
@[simp] theorem State.pushFreeWord_turns (s : State) :
    s.pushFreeWord.turns = s.turns := rfl
@[simp] theorem State.pushFreeWord_reads (s : State) :
    s.pushFreeWord.reads = Config.freeWord s.draws :: s.reads := rfl
@[simp] theorem State.pushFreeWord_draws (s : State) :
    s.pushFreeWord.draws = s.draws + 1 := rfl

@[simp] theorem State.pushFreeByte_width (s : State) :
    s.pushFreeByte.width = s.width := rfl
@[simp] theorem State.pushFreeByte_height (s : State) :
    s.pushFreeByte.height = s.height := rfl
@[simp] theorem State.pushFreeByte_cmd (s : State) :
    s.pushFreeByte.cmd = s.cmd := rfl
@[simp] theorem State.pushFreeByte_phase (s : State) :
    s.pushFreeByte.phase = s.phase := rfl
@[simp] theorem State.pushFreeByte_hzd (s : State) :
    s.pushFreeByte.hzd = s.hzd := rfl
@[simp] theorem State.pushFreeByte_errcode (s : State) :
    s.pushFreeByte.errcode = s.errcode := rfl
@[simp] theorem State.pushFreeByte_outWidth (s : State) :
    s.pushFreeByte.outWidth = s.outWidth := rfl
@[simp] theorem State.pushFreeByte_outHeight (s : State) :
    s.pushFreeByte.outHeight = s.outHeight := rfl
@[simp] theorem State.pushFreeByte_outStride (s : State) :
    s.pushFreeByte.outStride = s.outStride := rfl
@[simp] theorem State.pushFreeByte_outSize (s : State) :
    s.pushFreeByte.outSize = s.outSize := rfl
@[simp] theorem State.pushFreeByte_src (s : State) :
    s.pushFreeByte.src = s.src := rfl
@[simp] theorem State.pushFreeByte_dst (s : State) :
    s.pushFreeByte.dst = s.dst := rfl
@[simp] theorem State.pushFreeByte_params (s : State) :
    s.pushFreeByte.params = s.params := rfl
@[simp] theorem State.pushFreeByte_turns (s : State) :
    s.pushFreeByte.turns = s.turns := rfl
@[simp] theorem State.pushFreeByte_reads (s : State) :
    s.pushFreeByte.reads = (Config.freeByte s.draws).setWidth 32 :: s.reads := rfl
@[simp] theorem State.pushFreeByte_draws (s : State) :
    s.pushFreeByte.draws = s.draws + 1 := rfl

@[simp] theorem State.withMem_src_width (s : State) (m : Memory) :
    (s.withMem .src m).width = s.width := rfl
@[simp] theorem State.withMem_src_height (s : State) (m : Memory) :
    (s.withMem .src m).height = s.height := rfl
@[simp] theorem State.withMem_src_cmd (s : State) (m : Memory) :
    (s.withMem .src m).cmd = s.cmd := rfl
@[simp] theorem State.withMem_src_phase (s : State) (m : Memory) :
    (s.withMem .src m).phase = s.phase := rfl
@[simp] theorem State.withMem_src_hzd (s : State) (m : Memory) :
    (s.withMem .src m).hzd = s.hzd := rfl
@[simp] theorem State.withMem_src_errcode (s : State) (m : Memory) :
    (s.withMem .src m).errcode = s.errcode := rfl
@[simp] theorem State.withMem_src_outWidth (s : State) (m : Memory) :
    (s.withMem .src m).outWidth = s.outWidth := rfl
@[simp] theorem State.withMem_src_outHeight (s : State) (m : Memory) :
    (s.withMem .src m).outHeight = s.outHeight := rfl
@[simp] theorem State.withMem_src_outStride (s : State) (m : Memory) :
    (s.withMem .src m).outStride = s.outStride := rfl
@[simp] theorem State.withMem_src_outSize (s : State) (m : Memory) :
    (s.withMem .src m).outSize = s.outSize := rfl
@[simp] theorem State.withMem_src_src (s : State) (m : Memory) :
    (s.withMem .src m).src = m := rfl
@[simp] theorem State.withMem_src_dst (s : State) (m : Memory) :
    (s.withMem .src m).dst = s.dst := rfl
@[simp] theorem State.withMem_src_params (s : State) (m : Memory) :
    (s.withMem .src m).params = s.params := rfl
@[simp] theorem State.withMem_src_turns (s : State) (m : Memory) :
    (s.withMem .src m).turns = s.turns := rfl
@[simp] theorem State.withMem_src_reads (s : State) (m : Memory) :
    (s.withMem .src m).reads = s.reads := rfl
@[simp] theorem State.withMem_src_draws (s : State) (m : Memory) :
    (s.withMem .src m).draws = s.draws := rfl

@[simp] theorem State.withMem_dst_width (s : State) (m : Memory) :
    (s.withMem .dst m).width = s.width := rfl
@[simp] theorem State.withMem_dst_height (s : State) (m : Memory) :
    (s.withMem .dst m).height = s.height := rfl
@[simp] theorem State.withMem_dst_cmd (s : State) (m : Memory) :
    (s.withMem .dst m).cmd = s.cmd := rfl
@[simp] theorem State.withMem_dst_phase (s : State) (m : Memory) :
    (s.withMem .dst m).phase = s.phase := rfl
@[simp] theorem State.withMem_dst_hzd (s : State) (m : Memory) :
    (s.withMem .dst m).hzd = s.hzd := rfl
@[simp] theorem State.withMem_dst_errcode (s : State) (m : Memory) :
    (s.withMem .dst m).errcode = s.errcode := rfl
@[simp] theorem State.withMem_dst_outWidth (s : State) (m : Memory) :
    (s.withMem .dst m).outWidth = s.outWidth := rfl
@[simp] theorem State.withMem_dst_outHeight (s : State) (m : Memory) :
    (s.withMem .dst m).outHeight = s.outHeight := rfl
@[simp] theorem State.withMem_dst_outStride (s : State) (m : Memory) :
    (s.withMem .dst m).outStride = s.outStride := rfl
@[simp] theorem State.withMem_dst_outSize (s : State) (m : Memory) :
    (s.withMem .dst m).outSize = s.outSize := rfl
@[simp] theorem State.withMem_dst_src (s : State) (m : Memory) :
    (s.withMem .dst m).src = s.src := rfl
@[simp] theorem State.withMem_dst_dst (s : State) (m : Memory) :
    (s.withMem .dst m).dst = m := rfl
@[simp] theorem State.withMem_dst_params (s : State) (m : Memory) :
    (s.withMem .dst m).params = s.params := rfl
@[simp] theorem State.withMem_dst_turns (s : State) (m : Memory) :
    (s.withMem .dst m).turns = s.turns := rfl
@[simp] theorem State.withMem_dst_reads (s : State) (m : Memory) :
    (s.withMem .dst m).reads = s.reads := rfl
@[simp] theorem State.withMem_dst_draws (s : State) (m : Memory) :
    (s.withMem .dst m).draws = s.draws := rfl

@[simp] theorem State.raiseError_width (s : State) (e : ErrorKind) :
    (raiseError e s).width = s.width := rfl
@[simp] theorem State.raiseError_height (s : State) (e : ErrorKind) :
    (raiseError e s).height = s.height := rfl
@[simp] theorem State.raiseError_cmd (s : State) (e : ErrorKind) :
    (raiseError e s).cmd = s.cmd := rfl
@[simp] theorem State.raiseError_phase (s : State) (e : ErrorKind) :
    (raiseError e s).phase = .err := rfl
@[simp] theorem State.raiseError_hzd (s : State) (e : ErrorKind) :
    (raiseError e s).hzd = s.hzd := rfl
@[simp] theorem State.raiseError_errcode (s : State) (e : ErrorKind) :
    (raiseError e s).errcode = e.code := rfl
@[simp] theorem State.raiseError_outWidth (s : State) (e : ErrorKind) :
    (raiseError e s).outWidth = s.outWidth := rfl
@[simp] theorem State.raiseError_outHeight (s : State) (e : ErrorKind) :
    (raiseError e s).outHeight = s.outHeight := rfl
@[simp] theorem State.raiseError_outStride (s : State) (e : ErrorKind) :
    (raiseError e s).outStride = s.outStride := rfl
@[simp] theorem State.raiseError_outSize (s : State) (e : ErrorKind) :
    (raiseError e s).outSize = s.outSize := rfl
@[simp] theorem State.raiseError_src (s : State) (e : ErrorKind) :
    (raiseError e s).src = s.src := rfl
@[simp] theorem State.raiseError_dst (s : State) (e : ErrorKind) :
    (raiseError e s).dst = s.dst := rfl
@[simp] theorem State.raiseError_params (s : State) (e : ErrorKind) :
    (raiseError e s).params = s.params := rfl
@[simp] theorem State.raiseError_turns (s : State) (e : ErrorKind) :
    (raiseError e s).turns = s.turns := rfl
@[simp] theorem State.raiseError_reads (s : State) (e : ErrorKind) :
    (raiseError e s).reads = s.reads := rfl
@[simp] theorem State.raiseError_draws (s : State) (e : ErrorKind) :
    (raiseError e s).draws = s.draws := rfl

@[simp] theorem State.softReset_width (s : State) :
    (softReset s).width = 0 := rfl
@[simp] theorem State.softReset_height (s : State) :
    (softReset s).height = 0 := rfl
@[simp] theorem State.softReset_cmd (s : State) :
    (softReset s).cmd = 0 := rfl
@[simp] theorem State.softReset_phase (s : State) :
    (softReset s).phase = .idle := rfl
@[simp] theorem State.softReset_hzd (s : State) :
    (softReset s).hzd = false := rfl
@[simp] theorem State.softReset_errcode (s : State) :
    (softReset s).errcode = 0 := rfl
@[simp] theorem State.softReset_outWidth (s : State) :
    (softReset s).outWidth = 0 := rfl
@[simp] theorem State.softReset_outHeight (s : State) :
    (softReset s).outHeight = 0 := rfl
@[simp] theorem State.softReset_outStride (s : State) :
    (softReset s).outStride = 0 := rfl
@[simp] theorem State.softReset_outSize (s : State) :
    (softReset s).outSize = 0 := rfl
@[simp] theorem State.softReset_src (s : State) :
    (softReset s).src = s.src := rfl
@[simp] theorem State.softReset_dst (s : State) :
    (softReset s).dst = if s.phase = .busy then [] else s.dst := rfl
@[simp] theorem State.softReset_params (s : State) :
    (softReset s).params = s.params := rfl
@[simp] theorem State.softReset_turns (s : State) :
    (softReset s).turns = s.turns := rfl
@[simp] theorem State.softReset_reads (s : State) :
    (softReset s).reads = s.reads := rfl
@[simp] theorem State.softReset_draws (s : State) :
    (softReset s).draws = s.draws := rfl

@[simp] theorem State.hardwareReset_width (s : State) :
    (hardwareReset s).width = 0 := rfl
@[simp] theorem State.hardwareReset_height (s : State) :
    (hardwareReset s).height = 0 := rfl
@[simp] theorem State.hardwareReset_cmd (s : State) :
    (hardwareReset s).cmd = 0 := rfl
@[simp] theorem State.hardwareReset_phase (s : State) :
    (hardwareReset s).phase = .idle := rfl
@[simp] theorem State.hardwareReset_hzd (s : State) :
    (hardwareReset s).hzd = false := rfl
@[simp] theorem State.hardwareReset_errcode (s : State) :
    (hardwareReset s).errcode = 0 := rfl
@[simp] theorem State.hardwareReset_outWidth (s : State) :
    (hardwareReset s).outWidth = 0 := rfl
@[simp] theorem State.hardwareReset_outHeight (s : State) :
    (hardwareReset s).outHeight = 0 := rfl
@[simp] theorem State.hardwareReset_outStride (s : State) :
    (hardwareReset s).outStride = 0 := rfl
@[simp] theorem State.hardwareReset_outSize (s : State) :
    (hardwareReset s).outSize = 0 := rfl
@[simp] theorem State.hardwareReset_src (s : State) :
    (hardwareReset s).src = [] := rfl
@[simp] theorem State.hardwareReset_dst (s : State) :
    (hardwareReset s).dst = [] := rfl
@[simp] theorem State.hardwareReset_params (s : State) :
    (hardwareReset s).params = s.params := rfl
@[simp] theorem State.hardwareReset_turns (s : State) :
    (hardwareReset s).turns = s.turns := rfl
@[simp] theorem State.hardwareReset_reads (s : State) :
    (hardwareReset s).reads = s.reads := rfl
@[simp] theorem State.hardwareReset_draws (s : State) :
    (hardwareReset s).draws = s.draws := rfl

@[simp] theorem State.finish_width (s : State) (ow oh : Nat) (pack : Bool) (body : List (Nat × Option Byte)) :
    (finish ow oh pack body s).width = s.width := rfl
@[simp] theorem State.finish_height (s : State) (ow oh : Nat) (pack : Bool) (body : List (Nat × Option Byte)) :
    (finish ow oh pack body s).height = s.height := rfl
@[simp] theorem State.finish_cmd (s : State) (ow oh : Nat) (pack : Bool) (body : List (Nat × Option Byte)) :
    (finish ow oh pack body s).cmd = s.cmd := rfl
@[simp] theorem State.finish_phase (s : State) (ow oh : Nat) (pack : Bool) (body : List (Nat × Option Byte)) :
    (finish ow oh pack body s).phase = .done := rfl
@[simp] theorem State.finish_hzd (s : State) (ow oh : Nat) (pack : Bool) (body : List (Nat × Option Byte)) :
    (finish ow oh pack body s).hzd = s.hzd := rfl
@[simp] theorem State.finish_errcode (s : State) (ow oh : Nat) (pack : Bool) (body : List (Nat × Option Byte)) :
    (finish ow oh pack body s).errcode = s.errcode := rfl
@[simp] theorem State.finish_outWidth (s : State) (ow oh : Nat) (pack : Bool) (body : List (Nat × Option Byte)) :
    (finish ow oh pack body s).outWidth = BitVec.ofNat 32 ow := rfl
@[simp] theorem State.finish_outHeight (s : State) (ow oh : Nat) (pack : Bool) (body : List (Nat × Option Byte)) :
    (finish ow oh pack body s).outHeight = BitVec.ofNat 32 oh := rfl
@[simp] theorem State.finish_outStride (s : State) (ow oh : Nat) (pack : Bool) (body : List (Nat × Option Byte)) :
    (finish ow oh pack body s).outStride = BitVec.ofNat 32 (stride ow pack) := rfl
@[simp] theorem State.finish_outSize (s : State) (ow oh : Nat) (pack : Bool) (body : List (Nat × Option Byte)) :
    (finish ow oh pack body s).outSize = BitVec.ofNat 32 (bufSize ow oh pack) := rfl
@[simp] theorem State.finish_src (s : State) (ow oh : Nat) (pack : Bool) (body : List (Nat × Option Byte)) :
    (finish ow oh pack body s).src = s.src := rfl
@[simp] theorem State.finish_dst (s : State) (ow oh : Nat) (pack : Bool) (body : List (Nat × Option Byte)) :
    (finish ow oh pack body s).dst = (s.dst.writeAll (zeroWrites (bufSize ow oh pack))).writeAll body := rfl
@[simp] theorem State.finish_params (s : State) (ow oh : Nat) (pack : Bool) (body : List (Nat × Option Byte)) :
    (finish ow oh pack body s).params = s.params := rfl
@[simp] theorem State.finish_turns (s : State) (ow oh : Nat) (pack : Bool) (body : List (Nat × Option Byte)) :
    (finish ow oh pack body s).turns = s.turns := rfl
@[simp] theorem State.finish_reads (s : State) (ow oh : Nat) (pack : Bool) (body : List (Nat × Option Byte)) :
    (finish ow oh pack body s).reads = s.reads := rfl
@[simp] theorem State.finish_draws (s : State) (ow oh : Nat) (pack : Bool) (body : List (Nat × Option Byte)) :
    (finish ow oh pack body s).draws = s.draws := rfl

@[simp] theorem State.afterTurn_width (s : State) :
    s.afterTurn.width = s.width := rfl
@[simp] theorem State.afterTurn_height (s : State) :
    s.afterTurn.height = s.height := rfl
@[simp] theorem State.afterTurn_cmd (s : State) :
    s.afterTurn.cmd = s.cmd := rfl
@[simp] theorem State.afterTurn_phase (s : State) :
    s.afterTurn.phase = s.phase := rfl
@[simp] theorem State.afterTurn_hzd (s : State) :
    s.afterTurn.hzd = s.hzd := rfl
@[simp] theorem State.afterTurn_errcode (s : State) :
    s.afterTurn.errcode = s.errcode := rfl
@[simp] theorem State.afterTurn_outWidth (s : State) :
    s.afterTurn.outWidth = s.outWidth := rfl
@[simp] theorem State.afterTurn_outHeight (s : State) :
    s.afterTurn.outHeight = s.outHeight := rfl
@[simp] theorem State.afterTurn_outStride (s : State) :
    s.afterTurn.outStride = s.outStride := rfl
@[simp] theorem State.afterTurn_outSize (s : State) :
    s.afterTurn.outSize = s.outSize := rfl
@[simp] theorem State.afterTurn_src (s : State) :
    s.afterTurn.src = s.src := rfl
@[simp] theorem State.afterTurn_dst (s : State) :
    s.afterTurn.dst = s.dst := rfl
@[simp] theorem State.afterTurn_params (s : State) :
    s.afterTurn.params = s.params := rfl
@[simp] theorem State.afterTurn_turns (s : State) :
    s.afterTurn.turns = s.turns.tail := rfl
@[simp] theorem State.afterTurn_reads (s : State) :
    s.afterTurn.reads = s.reads := rfl
@[simp] theorem State.afterTurn_draws (s : State) :
    s.afterTurn.draws = s.draws := rfl

@[simp] theorem State.mem_src (s : State) : s.mem .src = s.src := rfl

@[simp] theorem State.mem_dst (s : State) : s.mem .dst = s.dst := rfl

@[simp] theorem State.markHazard_imgWidth (s : State) : s.markHazard.imgWidth = s.imgWidth := rfl

@[simp] theorem State.markHazard_imgHeight (s : State) : s.markHazard.imgHeight = s.imgHeight := rfl

@[simp] theorem State.withFetchWord_turns (s : State) (nbits w : Nat) :
    (s.withFetchWord nbits w).turns =
      .host (.access (.writeReg (tableOffset nbits w) (BitVec.ofNat 32 w))) :: s.turns := rfl

/-- The fetch changes nothing but the list of turns. -/
theorem State.withFetchWord_afterTurn (s : State) (nbits w : Nat) : (s.withFetchWord nbits w).afterTurn = s := rfl

end Sys2Proof.Machine
end

