-- ==== Sys2Proof/Laws/Ops.lean ====
section
/-! SUPPORT. For each shared operation, everything it can do. -/

namespace Sys2Proof.Machine

/-! ### Geometry -/

theorem rowSize_eq (w : Nat) : rowSize w = 3 * w + w % 4 := by simp only [rowSize]; omega

theorem le_stride (w : Nat) (pack : Bool) : 3 * w ≤ stride w pack := by
  cases pack <;> simp only [stride, rowSize, if_true, if_false, Bool.false_eq_true] <;> omega

theorem stride_le_bufSize {w h : Nat} (pack : Bool) (hh : 0 < h) : stride w pack ≤ bufSize w h pack :=
  Nat.le_mul_of_pos_right _ hh

theorem three_mul_le_bufSize {w h : Nat} (pack : Bool) (hh : 0 < h) : 3 * w ≤ bufSize w h pack :=
  (le_stride w pack).trans (stride_le_bufSize pack hh)

/-- An address of a pixel byte lies inside the image (R113). -/
theorem addr_lt {S x y c w h : Nat} (hS : 3 * w ≤ S) (hx : x < w) (hy : y < h) (hc : c < 3) :
    addr S x y c < S * h := by
  have h1 : (y + 1) * S ≤ h * S := Nat.mul_le_mul_right S hy
  simp only [addr]
  rw [Nat.mul_comm S h]
  rw [Nat.add_mul] at h1
  omega

/-- Two pixel bytes share an address only when they are the same (R113, R147). -/
theorem addr_inj {S x y c x' y' c' w : Nat} (hS : 3 * w ≤ S) (hx : x < w) (hc : c < 3) (hx' : x' < w) (hc' : c' < 3)
    (h : addr S x y c = addr S x' y' c') : x = x' ∧ y = y' ∧ c = c' := by
  simp only [addr] at h
  have key : ∀ {a b p q : Nat}, a < b → p < S → a * S + p = b * S + q → False := by
    intro a b p q hab hp he
    have : (a + 1) * S ≤ b * S := Nat.mul_le_mul_right S hab
    rw [Nat.add_mul] at this
    omega
  rcases Nat.lt_trichotomy y y' with hy | hy | hy
  · exact (key (p := 3 * x + c) (q := 3 * x' + c') hy (by omega) (by omega)).elim
  · subst hy; exact ⟨by omega, rfl, by omega⟩
  · exact (key (p := 3 * x' + c') (q := 3 * x + c) hy (by omega) (by omega)).elim

/-! ### The checks of issue -/

@[simp] theorem commandError_illegal (s : State) : s.commandError none = some .illegal := rfl

theorem commandError_eq_none_iff {s : State} {need : Option (Nat → Nat → Nat)} :
    s.commandError need = none ↔
      ∃ f, need = some f ∧ 0 < s.imgWidth ∧ 0 < s.imgHeight ∧
        f s.imgWidth.toNat s.imgHeight.toNat ≤ s.params.bufBytes := by
  cases need with
  | none => simp
  | some f =>
    simp only [State.commandError]
    split
    · simp; omega
    · split
      · simp; omega
      · simp; omega

/-- The checks look at the operands and at `BUF_BYTES` only. -/
theorem commandError_congr {s t : State} (need : Option (Nat → Nat → Nat)) (hw : s.width = t.width)
    (hh : s.height = t.height) (hb : s.params.bufBytes = t.params.bufBytes) :
    s.commandError need = t.commandError need := by
  have h1 : s.imgWidth = t.imgWidth := congrArg BitVec.toInt hw
  have h2 : s.imgHeight = t.imgHeight := congrArg BitVec.toInt hh
  cases need with
  | none => rfl
  | some f => rw [State.commandError, State.commandError, h1, h2, hb]

/-- Everything an issue can do where the phase allows it: it stores the word, and then either refuses or accepts. -/
theorem issueNow_cases (word : Word) (need : Option (Nat → Nat → Nat)) (s : State) :
    (∃ e, s.commandError need = some e ∧ issueNow word need s = raiseError e { s with cmd := word }) ∨
    (s.commandError need = none ∧ issueNow word need s = { s with cmd := word, phase := .busy }) := by
  have h : ({ s with cmd := word } : State).commandError need = s.commandError need :=
    commandError_congr need rfl rfl rfl
  simp only [issueNow, h]
  cases s.commandError need with
  | none => exact .inr ⟨rfl, rfl⟩
  | some e => exact .inl ⟨e, rfl, rfl⟩

/-- Everything a `CMD` write can do, by phase. -/
theorem issue_cases (word : Word) (need : Option (Nat → Nat → Nat)) (s : State) :
    ((s.phase = .idle ∨ s.phase = .done) ∧ issue word need s = issueNow word need s) ∨
    (s.phase = .err ∧ issue word need s = s) ∨
    (s.phase = .busy ∧ issue word need s = s.markHazard) := by
  cases h : s.phase <;> simp [issue, h]

/-! ### The ports -/

/-- Everything a register read can do: a value is returned, and `HZD` may be set. -/
theorem readRegister_cases (r : Reg) (s : State) :
    (s.phase ≠ .busy ∧ readRegister r s = s.pushRead (s.regValue r)) ∨
    (s.phase = .busy ∧ r = .status ∧ readRegister r s = s.pushRead s.statusWord) ∨
    (s.phase = .busy ∧ (r = .ctrl ∨ r = .reserved) ∧ readRegister r s = (s.pushRead 0).markHazard) ∨
    (s.phase = .busy ∧ r ≠ .status ∧ r ≠ .ctrl ∧ r ≠ .reserved ∧ readRegister r s = s.pushFreeWord.markHazard) := by
  by_cases h : s.phase = .busy
  · cases r <;> simp [readRegister, readRegisterBusy, h]
  · simp [readRegister, h]

/-- Everything a plain register write can do. -/
theorem writeRegister_cases (r : Reg) (v : Word) (s : State) :
    (s.phase = .busy ∧ writeRegister r v s = s.markHazard) ∨
    (s.phase ≠ .busy ∧ r = .width ∧ writeRegister r v s = { s with width := v }) ∨
    (s.phase ≠ .busy ∧ r = .height ∧ writeRegister r v s = { s with height := v }) ∨
    (s.phase ≠ .busy ∧ r ≠ .width ∧ r ≠ .height ∧ writeRegister r v s = s) := by
  by_cases h : s.phase = .busy
  · simp [writeRegister, h]
  · cases r <;> simp [writeRegister, storeRegister, h]

/-- Everything a port read can do: a byte is returned, defined or free, and `HZD` is set in `BUSY`. -/
theorem readPort_cases (space : Space) (a : Nat) (s : State) :
    (s.phase = .busy ∧ readPort space a s = s.pushFreeByte.markHazard) ∨
    (s.phase ≠ .busy ∧ readPort space a s = s.pushFreeByte) ∨
    (∃ b, s.phase ≠ .busy ∧ a < s.params.bufBytes ∧ (s.mem space).read? a = some b ∧
      readPort space a s = s.pushRead (b.setWidth 32)) := by
  by_cases h : s.phase = .busy
  · simp [readPort, h]
  · by_cases ha : a < s.params.bufBytes
    · cases hb : (s.mem space).read? a <;> simp [readPort, loadByte, h, ha, hb]
    · simp [readPort, loadByte, h, ha]

/-- Everything a port write can do. -/
theorem writePort_cases (space : Space) (a : Nat) (v : Byte) (s : State) :
    (s.phase = .busy ∧ writePort space a v s = s.markHazard) ∨
    (s.phase ≠ .busy ∧ ¬ a < s.params.bufBytes ∧ writePort space a v s = s) ∨
    (s.phase ≠ .busy ∧ a < s.params.bufBytes ∧
      writePort space a v s = s.withMem space ((s.mem space).write a v)) := by
  by_cases h : s.phase = .busy
  · simp [writePort, h]
  · by_cases ha : a < s.params.bufBytes <;> simp [writePort, h, ha]

/-! ### Completion -/

/-- Everything the completion step can do when it does not fault. -/
theorem complete_next {s t : State} (h : complete s = .next t) :
    ∃ i, commandOf s.cmd = some i ∧ s.commandError (requiredOf i) = none ∧ t = completeInstr i s := by
  simp only [complete] at h
  split at h
  · cases h
  · rename_i i hd
    split at h
    · cases h
    · rename_i he
      exact ⟨i, commandOf_eq_some.2 hd, he, (Host.Outcome.next.inj h).symm⟩

theorem complete_of_accepted {s : State} {i : Instr} (hc : commandOf s.cmd = some i)
    (he : s.commandError (requiredOf i) = none) : complete s = .next (completeInstr i s) := by
  simp only [complete, commandOf_eq_some.1 hc, he]

@[simp] theorem engineTurn_busy {s : State} (h : s.phase = .busy) : engineTurn s = complete s := if_pos h

@[simp] theorem engineTurn_not_busy {s : State} (h : s.phase ≠ .busy) : engineTurn s = .next s := if_neg h

/-! ### The stores of the two commands -/

theorem mem_rot90Writes {pack : Bool} {W H : Nat} {src : Memory} {w : Nat × Option Byte} :
    w ∈ rot90Writes pack W H src ↔ ∃ x y c, x < W ∧ y < H ∧ c < 3 ∧
      w = (addr (stride H pack) y (W - 1 - x) c, src.read? (addr (stride W pack) x y c)) := by
  simp only [rot90Writes, addr, List.mem_flatMap, List.mem_map, List.mem_range]
  constructor
  · rintro ⟨y, hy, x, hx, c, hc, rfl⟩
    exact ⟨x, y, c, hx, hy, hc, rfl⟩
  · rintro ⟨x, y, c, hx, hy, hc, rfl⟩
    exact ⟨y, hy, x, hx, c, hc, rfl⟩

theorem mem_blur5Writes {k : Kernel} {border pack : Bool} {W H : Nat} {src : Memory} {w : Nat × Option Byte} :
    w ∈ blur5Writes k border pack W H src ↔ ∃ x y c, x < W ∧ y < H ∧ c < 3 ∧
      w ∈ blur5PixelWrites k border (stride W pack) W H src x y c := by
  simp only [blur5Writes, List.mem_flatMap, List.mem_range]
  constructor
  · rintro ⟨y, hy, x, hx, c, hc, h⟩
    exact ⟨x, y, c, hx, hy, hc, h⟩
  · rintro ⟨x, y, c, hx, hy, hc, h⟩
    exact ⟨y, hy, x, hx, c, hc, h⟩

/-- Every store of a pixel goes to the pixel's own address. -/
theorem blur5PixelWrites_addr {k : Kernel} {border : Bool} {S W H : Nat} {src : Memory} {x y c : Nat}
    {w : Nat × Option Byte} (h : w ∈ blur5PixelWrites k border S W H src x y c) : w.1 = addr S x y c := by
  simp only [blur5PixelWrites] at h
  split at h
  · simp_all
  · split at h
    · simp_all
    · cases h

/-! ### One host access -/

/-- Everything one host access can do when it answers a next state. -/
theorem runAccess_next {a : Access} {s t : State} (h : runAccess a s = .next t) :
    (∃ off r, a = .readReg off ∧ regAt off = some r ∧ t = readRegister r s) ∨
    (∃ off v i, a = .writeReg off v ∧ decodeWrite off v = some i ∧ exec i s = .next t) ∨
    (∃ v off, a = .writeReg off v ∧ regAt off = some .cmd ∧ commandOf v = none ∧ t = issue v none s) ∨
    (∃ v off, a = .writeReg off v ∧ regAt off = some .ctrl ∧ v.getLsbD 0 = false ∧ t = s) ∨
    (∃ off v r, a = .writeReg off v ∧ regAt off = some r ∧ r ≠ .cmd ∧ r ≠ .ctrl ∧ t = writeRegister r v s) ∨
    (∃ space b, a = .readMem space b ∧ t = readPort space b s) ∨
    (∃ space b v, a = .writeMem space b v ∧ t = writePort space b v s) := by
  cases a with
  | readReg off =>
    refine .inl ?_
    cases hr : regAt off with
    | none => simp [runAccess, hr] at h
    | some r => exact ⟨off, r, rfl, hr, by simpa [runAccess, hr] using h.symm⟩
  | writeReg off v =>
    refine .inr ?_
    cases hr : regAt off with
    | none => simp [runAccess, hr] at h
    | some r =>
      by_cases h1 : r = .cmd
      · subst h1
        cases hd : decodeCmd v with
        | command i =>
          exact .inl ⟨off, v, i, rfl, by simp [decodeWrite, hr, hd], by simpa [runAccess, hr, writeTo, hd] using h⟩
        | illegal why =>
          refine .inr (.inl ⟨v, off, rfl, hr, by simp [commandOf, hd], ?_⟩)
          simpa [runAccess, hr, writeTo, hd, issueIllegal] using h.symm
      · by_cases h2 : r = .ctrl
        · subst h2
          cases hd : decodeCtrl v with
          | some i =>
            exact .inl ⟨off, v, i, rfl, by simp [decodeWrite, hr, hd], by simpa [runAccess, hr, writeTo, hd] using h⟩
          | none =>
            refine .inr (.inr (.inl ⟨v, off, rfl, hr, ?_, by simpa [runAccess, hr, writeTo, hd] using h.symm⟩))
            simpa [decodeCtrl] using hd
        · refine .inr (.inr (.inr (.inl ⟨off, v, r, rfl, hr, h1, h2, ?_⟩)))
          cases r <;> simp_all [runAccess, writeTo]
  | readMem space b =>
    exact .inr (.inr (.inr (.inr (.inr (.inl ⟨space, b, rfl, (Host.Outcome.next.inj h).symm⟩)))))
  | writeMem space b v =>
    exact .inr (.inr (.inr (.inr (.inr (.inr ⟨space, b, v, rfl, (Host.Outcome.next.inj h).symm⟩)))))

/-- A write that carries an instruction runs it. -/
theorem runAccess_write_instr {off : Nat} {v : Word} {i : Instr} (h : decodeWrite off v = some i) (s : State) :
    runAccess (.writeReg off v) s = exec i s := by
  rcases decodeWrite_cases h with ⟨hr, hd⟩ | ⟨hr, hd⟩ <;> simp [runAccess, hr, writeTo, hd]

/-! ### One step -/

theorem step_engine {s : State} {rest : List Turn} (h : s.turns = .engine :: rest) :
    step s = engineTurn s.afterTurn := by simp only [step, h]

theorem step_reset {s : State} {rest : List Turn} (h : s.turns = .reset :: rest) :
    step s = .next (hardwareReset s.afterTurn) := by simp only [step, h]

theorem step_access {s : State} {a : Access} {rest : List Turn} (h : s.turns = .host (.access a) :: rest) :
    step s = runAccess a s.afterTurn := by simp only [step, h, hostTurn]

theorem step_poll {s : State} {rest : List Turn} (h : s.turns = .host .poll :: rest) :
    step s = pollTurn s.afterTurn := by simp only [step, h, hostTurn]

theorem step_copyback {s : State} {k : CopyStep} {rest : List Turn} (h : s.turns = .host (.copyback k) :: rest) :
    step s = copyTurn k s.afterTurn := by simp only [step, h, hostTurn]

theorem step_nil {s : State} (h : s.turns = []) : step s = engineTurn s := by simp only [step, h]

end Sys2Proof.Machine
end

