-- ==== Sys2Proof/Laws/Step.lean ====
section
/-! SUPPORT. Everything one step can do, said once: the inversion lemmas of `step`, of the host's turn and of `exec`. -/

namespace Sys2Proof.Machine

theorem regAt_eq_cmd {off : Nat} (h : regAt off = some .cmd) : off = 0x08 := by
  simp only [regAt] at h
  split at h
  · split at h <;> simp_all
  · cases h

theorem regAt_eq_ctrl {off : Nat} (h : regAt off = some .ctrl) : off = 0x10 := by
  simp only [regAt] at h
  split at h
  · split at h <;> simp_all
  · cases h

/-- Everything the exec of an instruction can do: the issue of its word, or the soft reset. It never stops. -/
theorem exec_cases (i : Instr) (s : State) :
    (∃ f, requiredOf i = some f ∧ encodeOffset i = cmdOffset ∧ exec i s = .next (issue (encode i) (some f) s)) ∨
    (∃ ignored, i = .srst ignored ∧ exec i s = .next (softReset s)) := by
  cases i with
  | rot90 pack => exact .inl ⟨_, rfl, rfl, rfl⟩
  | blur5 border pack => exact .inl ⟨_, rfl, rfl, rfl⟩
  | srst ignored => exact .inr ⟨ignored, rfl, rfl⟩

/-- Re-queueing the rest of a `COPYBACK` changes the list of turns and nothing else. -/
theorem requeueCopy_eq (k : CopyStep) (s : State) :
    ∃ ts, requeueCopy k s = { s with turns := ts } := by
  simp only [requeueCopy]
  split
  · exact ⟨_, rfl⟩
  · exact ⟨s.turns, rfl⟩

/-- Everything a step can do when it answers a next state: the reset input; a completion; nothing; or one host access, after
which the list of turns may be longer than its tail (the rest of a `COPYBACK`). -/
theorem step_next {s t : State} (h : step s = .next t) :
    (s.turns.head? = some .reset ∧ t = hardwareReset s.afterTurn) ∨
    (s.phase = .busy ∧ (s.turns.head? = none ∨ s.turns.head? = some .engine ∨ s.turns.head? = some (.host .poll)) ∧
      ∃ ts, complete { s with turns := ts } = .next t) ∨
    (s.phase ≠ .busy ∧ (s.turns.head? = none ∨ s.turns.head? = some .engine) ∧ t = s.afterTurn) ∨
    (∃ turn a u ts, s.turns.head? = some turn ∧ turn.access? = some a ∧ runAccess a s.afterTurn = .next u ∧
      t = { u with turns := ts }) := by
  cases hts : s.turns with
  | nil =>
    have hs : s.afterTurn = s := by simp only [State.afterTurn, hts, List.tail_nil]; rw [← hts]
    rw [step_nil hts] at h
    by_cases hb : s.phase = .busy
    · rw [engineTurn_busy hb] at h
      exact .inr (.inl ⟨hb, .inl rfl, s.turns, h⟩)
    · rw [engineTurn_not_busy hb] at h
      exact .inr (.inr (.inl ⟨hb, .inl rfl, by rw [hs]; exact (Host.Outcome.next.inj h).symm⟩))
  | cons turn rest =>
    cases turn with
    | reset =>
      rw [step_reset hts] at h
      exact .inl ⟨rfl, (Host.Outcome.next.inj h).symm⟩
    | engine =>
      rw [step_engine hts] at h
      by_cases hb : s.phase = .busy
      · rw [engineTurn_busy (s := s.afterTurn) hb] at h
        exact .inr (.inl ⟨hb, .inr (.inl rfl), _, h⟩)
      · rw [engineTurn_not_busy (s := s.afterTurn) hb] at h
        exact .inr (.inr (.inl ⟨hb, .inr rfl, (Host.Outcome.next.inj h).symm⟩))
    | host op =>
      cases op with
      | access a =>
        rw [step_access hts] at h
        exact .inr (.inr (.inr ⟨_, a, t, t.turns, rfl, rfl, h, rfl⟩))
      | poll =>
        rw [step_poll hts] at h
        by_cases hb : s.phase = .busy
        · have hp : pollTurn s.afterTurn = complete { s with turns := .host .poll :: s.afterTurn.turns } := by
            rw [pollTurn, if_pos (show s.afterTurn.phase = .busy from hb)]
            exact engineTurn_busy hb
          rw [hp] at h
          exact .inr (.inl ⟨hb, .inr (.inr rfl), _, h⟩)
        · have hp : pollTurn s.afterTurn = runAccess (.readReg 0x0C) s.afterTurn := by
            rw [pollTurn, if_neg (show ¬ s.afterTurn.phase = .busy from hb)]
            rfl
          rw [hp] at h
          exact .inr (.inr (.inr ⟨_, _, t, t.turns, rfl, rfl, h, rfl⟩))
      | copyback k =>
        rw [step_copyback hts] at h
        simp only [copyTurn] at h
        split at h
        · rename_i u hu
          obtain ⟨ts, hq⟩ := requeueCopy_eq k u
          exact .inr (.inr (.inr ⟨_, _, u, ts, rfl, rfl, hu, by rw [← hq]; exact (Host.Outcome.next.inj h).symm⟩))
        · cases h
        · cases h

/-- A legal state stays legal whatever the host has still to do or has read, whatever has been drawn, and whether or not
`HZD` is set: the invariant does not look at these. -/
theorem State.Inv.of_same_engine {s : State} (h : s.Inv) (ts : List Turn) (rs : List Word) (n : Nat) (z : Bool) :
    ({ s with turns := ts, reads := rs, draws := n, hzd := z } : State).Inv :=
  ⟨h.params, ⟨h.error.quiet, h.error.coded, h.error.illegalWord⟩,
    ⟨h.memory.srcWf, h.memory.dstWf, h.memory.srcWithin, h.memory.dstWithin⟩,
    ⟨h.result.size, h.result.fits, h.result.signed, h.result.idle, h.result.done⟩, h.busy⟩

/-- A `COPYBACK` makes neither a `STATUS` read nor a write to `CMD` or `CTRL`, and its accesses exist. -/
theorem copyAccess_wf (k : CopyStep) : (copyAccess k).wf = true ∧ (copyAccess k).allowedInBusy = false := by
  cases k <;> exact ⟨rfl, rfl⟩

/-- A register access at an offset that exists is never refused, and no host access faults. -/
theorem runAccess_total {a : Access} (h : a.wf = true) (s : State) : ∃ t, runAccess a s = .next t := by
  have hreg : ∀ {off : Nat}, (off % 4 == 0 && off < 0x40) = true → ∃ r, regAt off = some r := by
    intro off ho
    simp only [Bool.and_eq_true, beq_iff_eq, decide_eq_true_eq] at ho
    exact ⟨_, if_pos ho⟩
  have hexec : ∀ i, ∃ t, exec i s = .next t := fun i => by
    rcases exec_cases i s with ⟨f, -, -, h⟩ | ⟨r, -, h⟩ <;> exact ⟨_, h⟩
  cases a with
  | readReg off =>
    obtain ⟨r, hr⟩ := hreg h
    exact ⟨readRegister r s, by simp only [runAccess, hr]⟩
  | writeReg off v =>
    obtain ⟨r, hr⟩ := hreg h
    simp only [runAccess, hr]
    cases r with
    | cmd =>
      simp only [writeTo]
      split
      · exact hexec _
      · exact ⟨_, rfl⟩
    | ctrl =>
      simp only [writeTo]
      split
      · exact hexec _
      · exact ⟨_, rfl⟩
    | width => exact ⟨_, rfl⟩
    | height => exact ⟨_, rfl⟩
    | status => exact ⟨_, rfl⟩
    | outWidth => exact ⟨_, rfl⟩
    | outHeight => exact ⟨_, rfl⟩
    | outStride => exact ⟨_, rfl⟩
    | outSize => exact ⟨_, rfl⟩
    | reserved => exact ⟨_, rfl⟩
  | readMem space a => exact ⟨_, rfl⟩
  | writeMem space a v => exact ⟨_, rfl⟩

end Sys2Proof.Machine
end

