-- ==== Sys2Proof/Laws/Commands.lean ====
section
/-! SUPPORT. The two commands: what issue makes of them, and what their bodies leave in one byte of the result. -/

namespace Sys2Proof.Machine

/-! ### Issue -/

theorem commandOf_encode {i : Instr} {f : Nat → Nat → Nat} (h : requiredOf i = some f) :
    commandOf (encode i) = some i := by
  cases i with
  | rot90 pack => cases pack <;> decide
  | blur5 border pack => cases border <;> cases pack <;> decide
  | srst ignored => cases h

theorem exec_command {i : Instr} {f : Nat → Nat → Nat} (h : requiredOf i = some f) (s : State) :
    exec i s = .next (issue (encode i) (requiredOf i) s) := by
  cases i with
  | rot90 pack => rfl
  | blur5 border pack => rfl
  | srst ignored => cases h

theorem issue_idle_or_done {s : State} (hp : s.phase = .idle ∨ s.phase = .done) (word : Word)
    (need : Option (Nat → Nat → Nat)) : issue word need s = issueNow word need s := by
  rcases hp with h | h <;> simp only [issue, h]

theorem issueNow_refused {s : State} {need : Option (Nat → Nat → Nat)} {e : ErrorKind}
    (h : s.commandError need = some e) (word : Word) :
    issueNow word need s = { s with cmd := word, phase := .err, errcode := e.code } := by
  rcases issueNow_cases word need s with ⟨e', h', hi⟩ | ⟨h', -⟩
  · rw [h] at h'
    cases h'
    exact hi
  · rw [h] at h'
    cases h'

theorem issueNow_accepted {s : State} {need : Option (Nat → Nat → Nat)} (h : s.commandError need = none) (word : Word) :
    issueNow word need s = { s with cmd := word, phase := .busy } := by
  rcases issueNow_cases word need s with ⟨e', h', -⟩ | ⟨-, hi⟩
  · rw [h] at h'
    cases h'
  · exact hi

/-- A command that passes its checks, issued in `IDLE` or `DONE`, is accepted. -/
theorem exec_accepted {i : Instr} {s : State} (hp : s.phase = .idle ∨ s.phase = .done)
    (he : s.commandError (requiredOf i) = none) :
    exec i s = .next { s with cmd := encode i, phase := .busy } := by
  obtain ⟨f, hf, -⟩ := commandError_eq_none_iff.1 he
  rw [exec_command hf, issue_idle_or_done hp, issueNow_accepted he]

/-- The engine's turn completes a command in flight that passes its checks. -/
theorem engineTurn_of_accepted {s : State} {i : Instr} (hb : s.phase = .busy) (hc : commandOf s.cmd = some i)
    (he : s.commandError (requiredOf i) = none) : engineTurn s = .next (completeInstr i s) := by
  rw [engineTurn_busy hb, complete_of_accepted hc he]

/-- After an accepted issue the engine's turn completes the command. -/
theorem engineTurn_after_issue {i : Instr} {s : State} (he : s.commandError (requiredOf i) = none) :
    engineTurn { s with cmd := encode i, phase := .busy } =
      .next (completeInstr i { s with cmd := encode i, phase := .busy }) := by
  obtain ⟨f, hf, -⟩ := commandError_eq_none_iff.1 he
  exact engineTurn_of_accepted rfl (commandOf_encode hf)
    ((commandError_congr (t := s) (requiredOf i) rfl rfl rfl).trans he)

/-! ### The body of `ROT90` -/

/-- After the body's stores, result pixel `(y, W-1-x)` is source pixel `(x, y)` (spec/41_rot90.md R142). -/
theorem read?_rot90Writes {pack : Bool} {W H x y c : Nat} (hx : x < W) (hy : y < H) (hc : c < 3) (src m : Memory) :
    (m.writeAll (rot90Writes pack W H src)).read? (addr (stride H pack) y (W - 1 - x) c) =
      src.read? (addr (stride W pack) x y c) := by
  refine Memory.read?_writeAll_eq (mem_rot90Writes.2 ⟨x, y, c, hx, hy, hc, rfl⟩) ?_ m
  intro w hw he
  obtain ⟨x', y', c', hx', hy', hc', rfl⟩ := mem_rot90Writes.1 hw
  obtain ⟨rfl, h2, rfl⟩ := addr_inj (le_stride H pack) hy' hc' hy hc he
  obtain rfl : x' = x := by omega
  rfl

/-! ### The body of `BLUR5` -/

/-- After the body's stores, a pixel byte is the filtered sum in the interior, and the source byte or the old byte on the
border (spec/42_blur5.md R162). -/
theorem read?_blur5Writes {k : Kernel} {border pack : Bool} {W H x y c : Nat} (hx : x < W) (hy : y < H) (hc : c < 3)
    (src m : Memory) :
    (m.writeAll (blur5Writes k border pack W H src)).read? (addr (stride W pack) x y c) =
      if interiorPixel x y W H then (windowSum k src (stride W pack) x y c).map narrow
      else if border then src.read? (addr (stride W pack) x y c)
      else m.read? (addr (stride W pack) x y c) := by
  have hall : ∀ w ∈ blur5Writes k border pack W H src, w.1 = addr (stride W pack) x y c →
      w ∈ blur5PixelWrites k border (stride W pack) W H src x y c := by
    intro w hw he
    obtain ⟨x', y', c', hx', -, hc', h⟩ := mem_blur5Writes.1 hw
    rw [blur5PixelWrites_addr h] at he
    obtain ⟨rfl, rfl, rfl⟩ := addr_inj (le_stride W pack) hx' hc' hx hc he
    exact h
  have hone : ∀ {v : Option Byte},
      blur5PixelWrites k border (stride W pack) W H src x y c = [(addr (stride W pack) x y c, v)] →
      (m.writeAll (blur5Writes k border pack W H src)).read? (addr (stride W pack) x y c) = v := by
    intro v hv
    refine Memory.read?_writeAll_eq (mem_blur5Writes.2 ⟨x, y, c, hx, hy, hc, by rw [hv]; exact List.mem_cons_self⟩) ?_ m
    intro w hw he
    have h := hall w hw he
    rw [hv, List.mem_singleton] at h
    rw [h]
  by_cases hi : interiorPixel x y W H
  · rw [if_pos hi]
    exact hone (by rw [blur5PixelWrites, if_pos hi])
  · rw [if_neg hi]
    by_cases hb : border = true
    · rw [if_pos hb]
      exact hone (by rw [blur5PixelWrites, if_neg hi, if_pos hb])
    · rw [if_neg hb]
      refine Memory.read?_writeAll_other (fun w hw he => ?_) m
      have h := hall w hw he
      rw [blur5PixelWrites, if_neg hi, if_neg hb] at h
      cases h

@[simp] theorem addTap_none (k : Kernel) (src : Memory) (S x y c : Nat) (t : Fin 5 × Fin 5) :
    addTap k src S x y c none t = none := rfl

theorem foldl_addTap_none (k : Kernel) (src : Memory) (S x y c : Nat) (ts : List (Fin 5 × Fin 5)) :
    ts.foldl (addTap k src S x y c) none = none := by
  induction ts with
  | nil => rfl
  | cons t ts ih => exact ih

theorem foldl_addTap_some {k : Kernel} {src : Memory} {S x y c : Nat} {b : Fin 5 → Fin 5 → Byte}
    (h : ∀ j i : Fin 5, src.read? (addr S (x + i.val - 2) (y + j.val - 2) c) = some (b j i))
    (ts : List (Fin 5 × Fin 5)) (n : Nat) :
    ts.foldl (addTap k src S x y c) (some n) =
      some (n + (ts.map fun t => Kernel.weight k t.1 t.2 * (b t.1 t.2).toNat).sum) := by
  induction ts generalizing n with
  | nil => rfl
  | cons t ts ih =>
    have ht : addTap k src S x y c (some n) t = some (n + Kernel.weight k t.1 t.2 * (b t.1 t.2).toNat) := by
      simp only [addTap, h t.1 t.2]
    rw [List.foldl_cons, ht, ih, List.map_cons, List.sum_cons, Nat.add_assoc]

theorem mem_taps (t : Fin 5 × Fin 5) : t ∈ taps := by
  simp only [taps, List.mem_flatMap, List.mem_map]
  exact ⟨t.1, List.mem_finRange _, t.2, List.mem_finRange _, rfl⟩

/-- A window with an unwritten byte has no sum (spec/70_reset_and_hazards.md R244). -/
theorem windowSum_eq_none {k : Kernel} {src : Memory} {S x y c : Nat} {j i : Fin 5}
    (h : src.read? (addr S (x + i.val - 2) (y + j.val - 2) c) = none) : windowSum k src S x y c = none := by
  have hl : ∀ (ts : List (Fin 5 × Fin 5)) (acc : Option Nat), (j, i) ∈ ts →
      ts.foldl (addTap k src S x y c) acc = none := by
    intro ts
    induction ts with
    | nil => intro _ hm; cases hm
    | cons t ts ih =>
      intro acc hm
      rw [List.foldl_cons]
      rcases List.mem_cons.1 hm with rfl | hm
      · have ht : addTap k src S x y c acc (j, i) = none := by
          cases acc <;> simp only [addTap, h]
        rw [ht, foldl_addTap_none]
      · exact ih _ hm
  exact hl taps (some 0) (mem_taps _)

end Sys2Proof.Machine
end

