-- ==== Sys2Proof/Laws/PerInstr.lean ====
section
/-! SUPPORT. The per-instruction family `EncodedWord`: the encoded word of an instruction is one its row of
spec/opcode_table.json matches, at the register its format names. -/

namespace Sys2Proof.Laws.EncodedWord

/-- The word matches the row's `match` under the row's `mask`, and goes to the register of the row's format. -/
def Statement (i : Instr) : Prop :=
  match i with
  | .rot90 _ => encodeOffset i = cmdOffset ∧ encode i &&& 0xFFFFFFDF#32 = 0x00000001#32
  | .blur5 _ _ => encodeOffset i = cmdOffset ∧ encode i &&& 0xFFFFFFCF#32 = 0x00000002#32
  | .srst _ => encodeOffset i = ctrlOffset ∧ (encode i).toNat % 2 = 1

theorem rot90 (pack : Bool) : Statement (.rot90 pack) := by
  cases pack <;> exact ⟨rfl, by decide⟩

theorem blur5 (border pack : Bool) : Statement (.blur5 border pack) := by
  cases border <;> cases pack <;> exact ⟨rfl, by decide⟩

theorem srst (ignored : BitVec 31) : Statement (.srst ignored) := by
  refine ⟨rfl, ?_⟩
  rw [encode_srst_toNat]
  omega

end Sys2Proof.Laws.EncodedWord
end

