-- ==== Sys2Proof/Tests/Slice0.lean ====
section
/-! SUPPORT. Tests against spec/95_test_vectors.md and the encodings, the smoke test of the checks, and for every statement
with hypotheses a witness that meets them. -/

namespace Sys2Proof.Tests

open Sys2Proof.Machine

/-! ### Helpers -/

/-- A memory with these bytes from address 0 on. -/
def bytes (bs : List Nat) : Memory := bs.zipIdx.map fun p => (p.2, BitVec.ofNat 8 p.1)

/-- An idle engine with `BUF_BYTES` = `buf`, the printed kernel, these dimensions and this source image. -/
def idleWith (buf w h : Nat) (src : List Nat) : State :=
  { State.resetWith { bufBytes := buf, kernel := Config.kernel } with
    width := BitVec.ofNat 32 w, height := BitVec.ofNat 32 h, src := bytes src }

/-- The same with the command `i` in flight. -/
def inFlight (i : Instr) (buf w h : Nat) (src : List Nat) : State :=
  { idleWith buf w h src with cmd := encode i, phase := .busy }

/-- The first `n` bytes of DST after the engine's turn. -/
def dstAfter (n : Nat) (s : State) : List (Option Byte) :=
  match engineTurn s with
  | .next t => (List.range n).map t.dst.read?
  | .fault _ => []
  | .refused _ => []

/-- The result registers after the engine's turn: `OUT_WIDTH`, `OUT_HEIGHT`, `OUT_STRIDE`, `OUT_SIZE`. -/
def outAfter (s : State) : List Word :=
  match engineTurn s with
  | .next t => [t.outWidth, t.outHeight, t.outStride, t.outSize]
  | .fault _ => []
  | .refused _ => []

/-- `STATUS` after a step. -/
def statusAfter (s : State) : Option Word :=
  match step s with
  | .next t => some t.statusWord
  | .fault _ => none
  | .refused _ => none

/-- A machine about to make one access. -/
def about (a : Access) (s : State) : State := { s with turns := [.host (.access a)] }

def someBytes (bs : List Nat) : List (Option Byte) := bs.map fun b => some (BitVec.ofNat 8 b)

/-! ### Smoke test of the checks: each refuses an ill-formed term -/

theorem test_wf_offset_unaligned : Access.wf (.readReg 0x06) = false := by decide
theorem test_wf_offset_range : Access.wf (.writeReg 0x40 1) = false := by decide
theorem test_wf_turn : Turn.wf (.host (.access (.writeReg 0x41 1))) = false := by decide
theorem test_wf_bufBytes_zero : Params.wf { bufBytes := 0, kernel := Config.kernel } = false := by decide
theorem test_wf_bufBytes_large : Params.wf { bufBytes := 2 ^ 32, kernel := Config.kernel } = false := by decide
theorem test_wf_good : Access.wf (.readReg 0x3C) = true ∧ Params.wf Config.params = true := by decide

/-! ### Decoding, from words written out bit by bit (R91, R92, R29) -/

theorem test_decode_rot90 : decodeCmd 0b00000000000000000000000000000001#32 = .command (.rot90 false) := by decide
theorem test_decode_rot90_pack : decodeCmd 0b00000000000000000000000000100001#32 = .command (.rot90 true) := by decide
theorem test_decode_blur5_pass : decodeCmd 0b00000000000000000000000000010010#32 = .command (.blur5 true false) := by
  decide
theorem test_decode_blur5_pack : decodeCmd 0b00000000000000000000000000100010#32 = .command (.blur5 false true) := by
  decide
theorem test_decode_srst :
    decodeCtrl 0b11111111111111111111111111111111#32 = some (.srst 0b1111111111111111111111111111111#31) := by decide
theorem test_decode_ctrl_bit0_clear : decodeCtrl 0b00000000000000000000000000000010#32 = none := by decide
/-- EV2: illegal words. -/
theorem test_decode_illegal :
    [0x00000000#32, 0x00000003#32, 0x0000000F#32, 0x00000010#32, 0x00000011#32, 0x00000031#32, 0x00000041#32,
      0x00000101#32, 0x80000001#32, 0xFFFFFFFF#32].map commandOf = List.replicate 10 none := by decide
/-- The words of the opcode table, as a reader of the table numbers them. -/
theorem test_decodeTableWord :
    decodeTableWord 32 1 = some (.rot90 false) ∧ decodeTableWord 32 2 = some (.blur5 false false) ∧
    decodeTableWord 8 1 = some (.srst 0) ∧ decodeTableWord 32 0 = none := by decide

/-! ### One step from reset, as a row of the table is placed -/

/-- EV3: with `WIDTH` = `HEIGHT` = 0 a command is refused with `ERR_GEOMETRY`. -/
theorem test_withFetchWord_rot90 : statusAfter (State.reset.withFetchWord 32 1) = some 0x24 := by decide
theorem test_withFetchWord_blur5 : statusAfter (State.reset.withFetchWord 32 2) = some 0x24 := by decide
theorem test_withFetchWord_srst : statusAfter (State.reset.withFetchWord 8 1) = some 0 := by decide

/-! ### ROT90 -/

/-- R128: the command is accepted. -/
theorem test_rot90_issue :
    statusAfter (about (.writeReg 0x08 1) (idleWith 64 2 2 [])) = some 0x00000001 := by decide

/-- RV3, step 1: padded rows, swapped dimensions, zero padding. -/
theorem test_rot90_completion :
    dstAfter 24 (inFlight (.rot90 false) 1024 3 2
      [0x00, 0x40, 0x80, 0x01, 0x41, 0x81, 0x02, 0x42, 0x82, 0xEE, 0xEE, 0xEE,
       0x10, 0x50, 0x90, 0x11, 0x51, 0x91, 0x12, 0x52, 0x92, 0xEE, 0xEE, 0xEE]) =
      someBytes [0x02, 0x42, 0x82, 0x12, 0x52, 0x92, 0, 0, 0x01, 0x41, 0x81, 0x11, 0x51, 0x91, 0, 0,
        0x00, 0x40, 0x80, 0x10, 0x50, 0x90, 0, 0] := by decide +kernel

/-- RV3 and RV4: the result registers, padded and packed. -/
theorem test_rot90_outputs :
    outAfter (inFlight (.rot90 false) 1024 3 2 []) = [2, 3, 8, 24] ∧
    outAfter (inFlight (.rot90 true) 1024 3 2 []) = [2, 3, 6, 18] := by decide +kernel

/-! ### BLUR5 -/

/-- BV7: a 7 by 6 ramp with wrapping windows, `PASS`: rows 2 and 3 of DST. -/
theorem test_blur5_pass_ramp :
    (dstAfter 96 (inFlight (.blur5 true false) 1024 7 6
      ((List.range 144).map fun a =>
        if a % 24 < 21 then (17 * (a % 24 / 3) + 29 * (a / 24) + 61 * (a % 3) + 5) % 256 else 0xEE))).drop 48 =
      someBytes
        [0x3F, 0x7C, 0xB9, 0x50, 0x8D, 0xCA, 0x5F, 0x9B, 0xB8, 0x70, 0xAB, 0xAA, 0x81, 0xB9, 0x8F, 0x94, 0xD1, 0x0E,
         0xA5, 0xE2, 0x1F, 0, 0, 0,
         0x5C, 0x99, 0xD6, 0x6D, 0xAA, 0xE7, 0x7C, 0xB4, 0x8E, 0x8D, 0xBC, 0x6F, 0x9D, 0xBA, 0x57, 0xB1, 0xEE, 0x2B,
         0xC2, 0xFF, 0x3C, 0, 0, 0] := by decide +kernel

/-- BV1: the 5 by 5 impulse, zero border: bytes 37 to 41 of DST. -/
theorem test_blur5_impulse :
    (dstAfter 42 (inFlight (.blur5 false false) 1024 5 5
      ((List.range 80).map fun a => if a = 38 then 0xFF else if a = 39 then 0x64 else if a = 40 then 1 else 0))).drop 37 =
      someBytes [0, 0x28, 0x0F, 0, 0] := by decide +kernel

/-! ### SRST and errors -/

/-- HV2: soft reset in `BUSY`: `STATUS` 0 and every byte of DST unspecified. -/
theorem test_srst_in_busy :
    exec (.srst 0) { inFlight (.rot90 false) 64 2 2 [1] with dst := bytes [5], hzd := true } =
      .next { State.resetWith { bufBytes := 64, kernel := Config.kernel } with src := bytes [1] } := rfl

/-- EV6, step 5: soft reset in `ERR` keeps DST. -/
theorem test_srst_in_err :
    exec (.srst 1) { idleWith 64 2 2 [1] with phase := .err, errcode := 1, cmd := 7, dst := bytes [0xB0] } =
      .next { idleWith 64 0 0 [1] with dst := bytes [0xB0] } := rfl

/-- EV4, EV5: the exact product, not the wrapped one; the priority of the errors. -/
theorem test_error_codes :
    statusAfter (about (.writeReg 0x08 2) (idleWith (2 ^ 32 - 1) 0x55555556 1 [])) = some 0x34 ∧
    statusAfter (about (.writeReg 0x08 0x11) (idleWith 64 0 100 [])) = some 0x14 ∧
    statusAfter (about (.writeReg 0x08 2) (idleWith 64 0 0x7FFFFFFF [])) = some 0x24 ∧
    statusAfter (about (.writeReg 0x08 2) (idleWith 64 100 100 [])) = some 0x34 := by decide

/-- RV8: the size check at its boundary, on the source and on the result. -/
theorem test_size_boundary :
    statusAfter (about (.writeReg 0x08 1) (idleWith 64 16 1 [])) = some 0x01 ∧
    statusAfter (about (.writeReg 0x08 1) (idleWith 64 17 1 [])) = some 0x34 ∧
    statusAfter (about (.writeReg 0x08 1) (idleWith 64 1 17 [])) = some 0x34 := by decide

/-! ### Host accesses -/

/-- HV1, step 3: a `WIDTH` write in `BUSY` is dropped and sets `HZD`. -/
theorem test_busy_write :
    statusAfter (about (.writeReg 0x00 7) (inFlight (.rot90 false) 64 2 2 [])) = some 0x09 := by decide

/-- HV3: `ST SRC[63], 1` stores and `ST SRC[64], 1` is dropped when `BUF_BYTES` is 64. -/
theorem test_port_boundary :
    step (about (.writeMem .src 63 1) (idleWith 64 0 0 [])) =
      .next { idleWith 64 0 0 [] with src := [(63, 1)] } ∧
    step (about (.writeMem .src 64 1) (idleWith 64 0 0 [])) = .next (idleWith 64 0 0 []) := ⟨rfl, rfl⟩

/-! ### Witnesses: states and operands that meet the hypotheses of the statements -/

/-- An idle engine with a 2 by 1 image of two pixels, packed, and `BUF_BYTES` = 64. -/
def idle2x1 : State := idleWith 64 2 1 [1, 2, 3, 4, 5, 6]

/-- `ROT90 PACK` in flight on it. -/
def rotBusy : State := inFlight (.rot90 true) 64 2 1 [1, 2, 3, 4, 5, 6]

/-- A 5 by 5 image of bytes 9, `BLUR5` or `BLUR5 PASS` in flight, `BUF_BYTES` = 128. -/
def blurBusy (border : Bool) : State := inFlight (.blur5 border false) 128 5 5 (List.replicate 80 9)

/-- An engine in phase `ERR` after an illegal word. -/
def erred : State := { idle2x1 with phase := .err, errcode := 1, cmd := 7 }

/-- `ROT90 PACK` completed: the result `4 5 6 1 2 3` in DST. -/
def rotDone : State :=
  { idle2x1 with
    cmd := encode (.rot90 true), phase := .done, outWidth := 1, outHeight := 2, outStride := 3, outSize := 6
    dst := bytes [4, 5, 6, 1, 2, 3] }

theorem witness_rotBusy_inv : rotBusy.Inv where
  params := by decide
  error := ⟨by decide, by decide, by decide⟩
  memory := ⟨by decide, by decide, by decide, by decide⟩
  result := ⟨by decide, by decide, by decide, by decide, by decide⟩
  busy _ := ⟨.rot90 true, by decide, by decide⟩

theorem witness_rotDone_inv : rotDone.Inv where
  params := by decide
  error := ⟨by decide, by decide, by decide⟩
  memory := ⟨by decide, by decide, by decide, by decide⟩
  result := ⟨by decide, by decide, by decide, by decide, by decide⟩
  busy h := absurd h (by decide)

theorem witness_erred_inv : erred.Inv where
  params := by decide
  error := ⟨by decide, by decide, by decide⟩
  memory := ⟨by decide, by decide, by decide, by decide⟩
  result := ⟨by decide, by decide, by decide, by decide, by decide⟩
  busy h := absurd h (by decide)

/-- DecodeOfEncodeIsTheInstruction. -/
theorem witness_encode :
    (Instr.srst 5).wf = true ∧ encodeAccess (.rot90 true) = encodeAccess (.rot90 true) ∧
    decodeWrite 0x10 0xFFFFFFFF = some (.srst 0x7FFFFFFF) := by decide

/-- DecodeFollowsTheBitFields, one word for each clause, at the ends of the fields. -/
theorem witness_bit_fields :
    (64 / 64 ≠ 0 ∧ 0xFFFFFFFF / 64 ≠ 0) ∧ (0x21 / 64 = 0 ∧ 0x21 % 16 = 1 ∧ 0x21 / 16 % 2 = 0) ∧
    (0x31 / 64 = 0 ∧ 0x31 % 16 = 1 ∧ 0x31 / 16 % 2 = 1) ∧ (0x32 / 64 = 0 ∧ 0x32 % 16 = 2) ∧
    (0x3F / 64 = 0 ∧ 0x3F % 16 ≠ 1 ∧ 0x3F % 16 ≠ 2) := by decide

/-- IllegalWordsRaiseErrIllegal. -/
theorem witness_illegal :
    (idle2x1.phase = .idle ∨ idle2x1.phase = .done) ∧ ∃ why, decodeCmd 0x31 = .illegal why :=
  ⟨.inl rfl, .rot90Border, by decide⟩

/-- StepRunsTheDecodedInstruction, at both registers that carry instructions. -/
theorem witness_step_runs :
    decodeWrite 0x08 0x21 = some (.rot90 true) ∧ decodeWrite 0x08 0x32 = some (.blur5 true true) ∧
    decodeWrite 0x10 0x03 = some (.srst 1) := by decide

/-- RowSizeIsTheLeastMultipleOfFour. -/
theorem witness_row_size : 16 % 4 = 0 ∧ 3 * 5 ≤ 16 ∧ 8 % 4 = 0 := by decide

/-- PixelAddressesStayInsideAndApart, at the last pixel byte of a 5 by 5 image. -/
theorem witness_pixel_addresses :
    3 * 5 ≤ 16 ∧ 4 < 5 ∧ 4 < 5 ∧ 2 ≤ 2 ∧ addr 16 4 4 2 = addr 16 4 4 2 := by decide

/-- InteriorIsARectangle. -/
theorem witness_no_interior : (4 ≤ 4 ∨ 5 ≤ 4) ∧ interiorPixel 2 2 5 5 := by decide

/-- IssueChecksInTheirOrder, one machine and word for each clause, at the ends of the ranges. -/
theorem witness_issue :
    (idle2x1.phase = .idle ∧ rotDone.phase = .done) ∧ commandOf 0 = none ∧
    ((commandOf 2).isSome ∧ (idleWith 64 0 5 []).width.toInt ≤ 0 ∧ (idleWith 64 5 0x80000000 []).height.toInt ≤ 0) ∧
    (commandOf 1 = some (.rot90 false) ∧ 0 < (idleWith 64 17 1 []).width.toInt ∧ 0 < (idleWith 64 17 1 []).height.toInt ∧
      64 < max (stride 17 false * 1) (stride 1 false * 17) ∧ max (stride 16 false * 1) (stride 1 false * 16) ≤ 64) ∧
    (commandOf 0x12 = some (.blur5 true false) ∧ 64 < stride 5 false * 5 ∧ stride 5 false * 4 ≤ 64) := by decide

/-- ErrorsAriseOnlyAtCommandWrites. -/
theorem witness_error :
    step (about (.writeReg 0x08 7) idle2x1) = .next erred ∧ idle2x1.phase ≠ .err ∧ erred.phase = .err :=
  ⟨rfl, by decide, rfl⟩

/-- SizeCheckNeverWraps. -/
theorem witness_no_wrap :
    let s := idleWith (2 ^ 32 - 1) 0x10000 0x10000 []
    s.params.wf = true ∧ 0 < s.width.toInt ∧ 0 < s.height.toInt ∧ s.phase = .idle ∧
    2 ^ 32 ≤ bufSize s.width.toInt.toNat s.height.toInt.toNat false ∧ bufSize 1 1 true ≤ 2 ^ 32 - 1 := by decide

/-- CommandWriteIsDroppedInBusyAndErr, EngineWaitsOutsideBusy, and the clauses by phase of the host access statements. -/
theorem witness_phases :
    rotBusy.phase = .busy ∧ erred.phase = .err ∧ idle2x1.phase ≠ .busy ∧ idle2x1.turns = [] ∧ idle2x1.endedWell := by
  decide

/-- Rot90CompletesWithSwappedDimensions and Rot90MovesEveryPixel, with the needed size exactly `BUF_BYTES`. -/
theorem witness_rot90 :
    let s := idleWith 24 3 2 (List.replicate 24 1)
    (s.phase = .idle ∨ s.phase = .done) ∧ s.params.wf = true ∧ 0 < s.width.toInt ∧ 0 < s.height.toInt ∧
    max (stride 3 false * 2) (stride 2 false * 3) ≤ s.params.bufBytes ∧ s.width.toInt.toNat = 3 ∧
    s.height.toInt.toNat = 2 := by decide

/-- Blur5CompletesWithSameDimensions. -/
theorem witness_blur5 :
    let s := idleWith 80 5 5 (List.replicate 80 9)
    (s.phase = .idle ∨ s.phase = .done) ∧ s.params.wf = true ∧ 0 < s.width.toInt ∧ 0 < s.height.toInt ∧
    stride 5 false * 5 ≤ s.params.bufBytes ∧ s.width.toInt.toNat = 5 ∧ s.height.toInt.toNat = 5 := by decide

/-- The next in-flight machine after `ROT90` and `COPYBACK` on a 2 by 1 or 1 by 2 packed image. -/
def rotNext (w h : Nat) (src : List Nat) : State := inFlight (.rot90 true) 64 w h src

theorem rotatedInto_of {s t : State} (d : State) (hd : engineTurn s = .next d) (hw : t.width = d.outWidth)
    (hh : t.height = d.outHeight) (hs : ∀ a, a < d.outSize.toNat → t.src.read? a = d.dst.read? a) (hc : t.cmd = s.cmd)
    (hp : t.params = s.params) (hb : t.phase = .busy) : s.RotatedInto t := ⟨⟨d, hd, hw, hh, hs⟩, hc, hp, hb⟩

/-- FourRotationsReturnEveryPixel: a chain of four rotations. -/
theorem witness_four_rotations :
    (rotBusy.params.wf = true ∧ rotBusy.phase = .busy ∧ commandOf rotBusy.cmd = some (.rot90 true) ∧
      rotBusy.commandError (requiredOf (.rot90 true)) = none) ∧
    rotBusy.RotatedInto (rotNext 1 2 [4, 5, 6, 1, 2, 3]) ∧
    (rotNext 1 2 [4, 5, 6, 1, 2, 3]).RotatedInto (rotNext 2 1 [4, 5, 6, 1, 2, 3]) ∧
    (rotNext 2 1 [4, 5, 6, 1, 2, 3]).RotatedInto (rotNext 1 2 [1, 2, 3, 4, 5, 6]) ∧
    (rotNext 1 2 [1, 2, 3, 4, 5, 6]).RotatedInto rotBusy := by
  refine ⟨by decide, ?_, ?_, ?_, ?_⟩ <;>
    exact rotatedInto_of _ rfl (by decide) (by decide) (by decide +kernel) rfl rfl rfl

/-- Blur5InteriorIsTheWeightedSum, with `BORDER` 0 and 1: the whole window is written; and with one window byte unwritten. -/
theorem witness_blur5_interior :
    (∀ border, (blurBusy border).phase = .busy ∧
      commandOf (blurBusy border).cmd = some (.blur5 border false) ∧
      (blurBusy border).commandError (requiredOf (.blur5 border false)) = none ∧ interiorPixel 2 2 5 5 ∧ 2 < 3) ∧
    (∀ j i : Fin 5, (blurBusy true).src.pixel? 16 (2 + i.val - 2) (2 + j.val - 2) 2 = some 9) ∧
    Memory.pixel? [] 16 (2 + 4 - 2) (2 + 4 - 2) 2 = none := by decide +kernel

/-- Blur5ZeroBorderIsBlack and Blur5PassBorderIsTheSource: border pixels at the corners and next to the interior. -/
theorem witness_blur5_border :
    (commandOf (blurBusy false).cmd = some (.blur5 false false) ∧ commandOf (blurBusy true).cmd = some (.blur5 true false)) ∧
    (4 < 5 ∧ ¬ interiorPixel 4 4 5 5) ∧ ¬ interiorPixel 1 2 5 5 ∧ interiorPixel 2 2 5 5 := by decide

/-- PrintedKernelNeverWraps and UniformWindowGives987Thousandths. -/
theorem witness_uniform :
    (∀ j i : Fin 5, (blurBusy false).src.pixel? 16 (2 + i.val - 2) (2 + j.val - 2) 0 = some 9) ∧
    windowSum Config.kernel (blurBusy false).src 16 2 2 0 = some (987 * 9) := by decide +kernel

/-- A 5 by 5 image that is 0 but for 255 at pixel (0, 4), all channels, with `BLUR5` in flight. -/
def impulse : State :=
  inFlight (.blur5 false false) 128 5 5 ((List.range 80).map fun a => if 64 ≤ a ∧ a < 67 then 255 else 0)

/-- ImpulseShowsTheKernel, with an impulse in the corner of the window, where the first clause applies at (2, 2). -/
theorem witness_impulse :
    impulse.phase = .busy ∧ commandOf impulse.cmd = some (.blur5 false false) ∧
    impulse.commandError (requiredOf (.blur5 false false)) = none ∧ impulse.params.kernel = Config.kernel ∧
    (∀ x, x < 5 → ∀ y, y < 5 → impulse.src.pixel? 16 x y 1 = some (if x = 0 ∧ y = 4 then 255 else 0)) ∧
    interiorPixel 2 2 5 5 ∧ 0 + 2 = 2 + (0 : Fin 5).val ∧ 4 + 2 = 2 + (4 : Fin 5).val := by decide +kernel

/-- ImpulseShowsTheKernel, second clause: in a wider image an interior pixel out of the impulse's reach. -/
theorem witness_impulse_out_of_reach :
    interiorPixel 3 2 6 5 ∧ ∀ j i : Fin 5, ¬ (0 + 2 = 3 + i.val ∧ 4 + 2 = 2 + j.val) := by decide

/-- ResultPaddingIsZeroAndTheTailIsKept: a padding byte and a byte beyond the result. -/
theorem witness_padding :
    let s := inFlight (.rot90 false) 24 3 2 []
    s.phase = .busy ∧ commandOf s.cmd = some (.rot90 false) ∧ s.commandError (requiredOf (.rot90 false)) = none ∧
    outDims (.rot90 false) 3 2 = (2, 3) ∧ 6 < stride 2 false * 3 ∧
    (∀ x, x < 2 → ∀ y, y < 3 → ∀ c, c < 3 → 6 ≠ addr (stride 2 false) x y c) ∧ stride 2 false * 3 ≤ 24 := by
  decide +kernel

/-- ResultDependsOnTheFootprintOnly: two machines that differ outside the footprint, in DST, `HZD` and the old results. -/
def otherRotBusy : State :=
  { rotBusy with src := bytes [1, 2, 3, 4, 5, 6, 77], dst := bytes [8], hzd := true, outSize := 5 }

theorem witness_footprint :
    rotBusy.params.wf = true ∧ rotBusy.phase = .busy ∧ otherRotBusy.phase = .busy ∧
    commandOf rotBusy.cmd = some (.rot90 true) ∧ rotBusy.commandError (requiredOf (.rot90 true)) = none ∧
    otherRotBusy.cmd = rotBusy.cmd ∧ otherRotBusy.width = rotBusy.width ∧ otherRotBusy.height = rotBusy.height ∧
    otherRotBusy.params = rotBusy.params ∧
    ∀ a, footprint (.rot90 true) rotBusy.width.toInt.toNat rotBusy.height.toInt.toNat a →
      otherRotBusy.src.read? a = rotBusy.src.read? a := by
  refine ⟨by decide, rfl, rfl, by decide, by decide, rfl, rfl, rfl, rfl, ?_⟩
  rintro a ⟨pack, x, y, c, hx, hy, hc, rfl, h⟩
  obtain rfl : true = pack := by
    rcases h with h | h | ⟨h, -⟩
    · exact Instr.rot90.inj h
    · cases h
    · cases h
  have hW : rotBusy.width.toInt.toNat = 2 := by decide
  have hH : rotBusy.height.toInt.toNat = 1 := by decide
  rw [hW] at hx ⊢
  rw [hH] at hy
  have hall : ∀ x, x < 2 → ∀ y, y < 1 → ∀ c, c < 3 →
      otherRotBusy.src.read? (addr (stride 2 true) x y c) = rotBusy.src.read? (addr (stride 2 true) x y c) := by
    decide
  exact hall x hx y hy c hc

/-- OperandsAreStableInBusy, HazardIsSetInBusyAndClearedByReset, PhaseChangesAlongItsTable, NoStepChangesTheParameters,
EveryStepKeepsTheInvariant: a host write in `BUSY` answers a next state and its turn is no reset; a soft reset clears `HZD`
and changes the phase. -/
theorem witness_busy_steps :
    step (about (.writeReg 0x00 7) rotBusy) = .next { rotBusy with hzd := true } ∧
    (∀ turn ∈ (about (.writeReg 0x00 7) rotBusy).turns.head?, turn.resets = false) ∧ rotBusy.hzd = false ∧
    step (about (.writeReg 0x10 1) { rotBusy with hzd := true }) = .next (softReset rotBusy) ∧
    (softReset rotBusy).hzd = false ∧ rotBusy.phase ≠ (softReset rotBusy).phase := by
  refine ⟨rfl, ?_, by decide, rfl, by decide, by decide⟩
  intro turn h
  obtain rfl := Option.some.inj h
  decide

/-- CommandsLeaveTheSourceAlone and HazardFlagDisturbsNoCommand. -/
theorem witness_commands :
    (requiredOf (.rot90 true)).isSome = true ∧ (requiredOf (.blur5 false false)).isSome = true ∧
    exec (.rot90 true) idle2x1 = .next rotBusy ∧ engineTurn rotBusy = .next (completeRot90 true rotBusy) ∧
    engineTurn (blurBusy true) = .next (completeBlur5 true false (blurBusy true)) := ⟨rfl, rfl, rfl, rfl, rfl⟩

/-- SourceChangesOnlyByHostStores: by a store, and by the reset input. -/
theorem witness_source_changes :
    step (about (.writeMem .src 63 9) idle2x1) = .next (writePort .src 63 9 idle2x1) ∧
    (writePort .src 63 9 idle2x1).src.read? 63 ≠ idle2x1.src.read? 63 ∧
    step { idle2x1 with turns := [.reset] } = .next (hardwareReset idle2x1) ∧
    (hardwareReset idle2x1).src.read? 0 ≠ idle2x1.src.read? 0 := ⟨rfl, by decide, rfl, by decide⟩

/-- RegisterReadsByPhase: every listed offset with its value, outside `BUSY`; the ends of each list in `BUSY`. -/
theorem witness_register_reads :
    rotDone.phase ≠ .busy ∧ rotBusy.phase = .busy ∧
    (0x20, rotDone.outSize) ∈ [(0x00, rotDone.width), (0x1C, rotDone.outStride), (0x20, rotDone.outSize)] ∧
    (0x3C : Nat) ∈ [0x10, 0x24, 0x28, 0x2C, 0x30, 0x34, 0x38, 0x3C] ∧
    (0x00 : Nat) ∈ [0x00, 0x04, 0x08, 0x14, 0x18, 0x1C, 0x20] := by decide

/-- RegisterWritesByPhase: `CTRL` with bit 0 set and clear; the phases are those of `witness_phases`. -/
theorem witness_register_writes :
    (0x80000001#32).getLsbD 0 = true ∧ (0xFFFFFFFE#32).getLsbD 0 = false ∧
    (0x0C : Nat) ∈ [0x0C, 0x14, 0x18, 0x1C, 0x20, 0x24, 0x28, 0x2C, 0x30, 0x34, 0x38, 0x3C] := by decide

/-- PortReadsByPhase and PortWritesByPhase: the last address in range with a byte, the first out of range, an unwritten one. -/
theorem witness_ports :
    rotDone.phase ≠ .busy ∧ (idleWith 6 2 1 [1, 2, 3, 4, 5, 6]).params.bufBytes = 6 ∧
    ((idleWith 6 2 1 [1, 2, 3, 4, 5, 6]).mem .src).read? 5 = some 6 ∧ 5 < 6 ∧ 6 ≤ 6 ∧
    (rotDone.mem .dst).read? 6 = none ∧ rotBusy.phase = .busy := by decide

/-- BusyAccessesOnlySetHazard: accesses of both kinds, and the completion the second clause speaks of. -/
theorem witness_busy_accesses :
    rotBusy.phase = .busy ∧ Access.wf (.readReg 0x0C) = true ∧ Access.allowedInBusy (.readReg 0x0C) = true ∧
    Access.wf (.writeReg 0x3C 1) = true ∧ Access.allowedInBusy (.writeReg 0x3C 1) = false ∧
    Access.allowedInBusy (.readMem .dst 0) = false ∧
    engineTurn rotBusy = .next (completeRot90 true rotBusy) :=
  ⟨rfl, rfl, rfl, rfl, rfl, rfl, rfl⟩

/-- RegisterAccessNeedsAnAlignedOffset: the ends of both ranges. -/
theorem witness_offsets : (0x3E % 4 ≠ 0 ∨ 0x40 ≤ 0x3E) ∧ (0x40 % 4 ≠ 0 ∨ 0x40 ≤ 0x40) ∧ 0x3C % 4 = 0 ∧ 0x3C < 0x40 := by
  decide

/-- LoadFillsTheSource and DumpReadsTheResult. -/
theorem witness_load_dump :
    idle2x1.phase ≠ .busy ∧ [1#8, 2#8].length ≤ idle2x1.params.bufBytes ∧ rotDone.phase ≠ .busy ∧
    ∀ a, (h : a < [4#8, 5#8, 6#8].length) → rotDone.dst.read? a = some [4#8, 5#8, 6#8][a] := by decide

/-- CopybackMovesTheResult: a legal machine in `DONE` whose result has defined bytes. -/
theorem witness_copyback : rotDone.Inv ∧ rotDone.phase = .done ∧ 5 < rotDone.outSize.toNat ∧ rotDone.dst.read? 5 = some 3 :=
  ⟨witness_rotDone_inv, rfl, by decide, by decide⟩

/-- PollAfterCommandShowsDoneOrErr: a command that is accepted and one that is refused. -/
theorem witness_poll :
    idle2x1.phase = .idle ∧ (requiredOf (.rot90 true)).isSome = true ∧
    idle2x1.commandError (requiredOf (.rot90 true)) = none ∧
    (idleWith 64 0 0 []).commandError (requiredOf (.blur5 false false)) = some .geometry := by decide

/-- ErrIsLeftOnlyByReset. -/
theorem witness_err_step :
    step (about (.writeReg 0x08 1) erred) = .next erred ∧
    ∀ turn ∈ (about (.writeReg 0x08 1) erred).turns.head?, turn.resets = false := by
  refine ⟨rfl, ?_⟩
  intro turn h
  obtain rfl := Option.some.inj h
  decide

/-- SoftResetClearsAllButTheMemories, second part. -/
theorem witness_soft_reset : exec (.srst 0) rotBusy = .next (softReset rotBusy) ∧ rotBusy.phase = .busy := ⟨rfl, rfl⟩

/-- ResetStateIsLegal. -/
theorem witness_params : Params.wf { bufBytes := 1, kernel := Config.kernel } = true ∧
    Params.wf { bufBytes := 2 ^ 32 - 1, kernel := Config.kernel } = true := by decide

/-- EveryStepKeepsTheInvariant, LegalStatesNeverFault and StatusShowsPhaseHazardAndCode: a legal machine about to make a turn
that answers a next state, and one that makes an access that does not exist. -/
theorem witness_legal_step :
    (about (.writeReg 0x00 7) rotBusy).Inv ∧ (∃ t, step (about (.writeReg 0x00 7) rotBusy) = .next t) ∧
    (about (.readReg 0x42) rotBusy).Inv ∧ step (about (.readReg 0x42) rotBusy) = .refused (.noSuchRegister 0x42) :=
  ⟨witness_rotBusy_inv.of_same_engine _ _ _ _, ⟨_, rfl⟩, witness_rotBusy_inv.of_same_engine _ _ _ _, rfl⟩

/-- What the host does in the witness below. -/
def busyTurns : List Turn := [.host (.access (.writeReg 0x00 7)), .host (.copyback .size), .host .poll, .engine]

/-- BusyEndsInDone: a command in flight while the host writes, copies back and polls. -/
theorem witness_busy_ends :
    let s : State := { rotBusy with turns := busyTurns }
    s.Inv ∧ s.phase = .busy ∧ ∀ turn ∈ s.turns, turn.wf = true ∧ turn.resets = false :=
  ⟨witness_rotBusy_inv.of_same_engine _ _ _ _, rfl, by decide⟩

end Sys2Proof.Tests
end

section
/-!
The printed kernel (R7): the entries of the table read through `Kernel.weight`, their sum, and the table's symmetries.
-/

namespace Sys2Proof.Machine

theorem printedKernel_table :
    (List.finRange 5).map (fun j => (List.finRange 5).map (Kernel.weight Config.kernel j)) =
      [[3, 13, 22, 13, 3], [13, 59, 97, 59, 13], [22, 97, 159, 97, 22], [13, 59, 97, 59, 13], [3, 13, 22, 13, 3]] := by
  decide

theorem printedKernel_sum : ∑ j : Fin 5, ∑ i : Fin 5, Kernel.weight Config.kernel j i = 987 := by
  decide

theorem printedKernel_transpose :
    ∀ j i : Fin 5, Kernel.weight Config.kernel j i = Kernel.weight Config.kernel i j := by
  decide

theorem printedKernel_rowReversal :
    ∀ j i : Fin 5, Kernel.weight Config.kernel j i = Kernel.weight Config.kernel (4 - j) i := by
  decide

/-- Transposing turns the reversal of a row's entries into the reversal of the rows. -/
theorem printedKernel_columnReversal (j i : Fin 5) :
    Kernel.weight Config.kernel j i = Kernel.weight Config.kernel j (4 - i) :=
  calc Kernel.weight Config.kernel j i
    _ = Kernel.weight Config.kernel i j := printedKernel_transpose j i
    _ = Kernel.weight Config.kernel (4 - i) j := printedKernel_rowReversal i j
    _ = Kernel.weight Config.kernel j (4 - i) := printedKernel_transpose (4 - i) j

/-- Settles O10, clause by clause from the facts about the printed table. -/
theorem printedKernelSumsTo987 : Obligations.PrintedKernelSumsTo987 :=
  ⟨printedKernel_table, printedKernel_sum, printedKernel_transpose, printedKernel_rowReversal,
    printedKernel_columnReversal⟩

end Sys2Proof.Machine
end

section
/-!
The bits of words: an accepted command word is the encoding of its command, and `STATUS` bit by bit (R28).
-/

namespace Sys2Proof

/-- A command word is its four fields (R91). -/
theorem word_eq_fields (v : Word) :
    v = v.extractLsb' 6 26 ++ BitVec.ofBool (v.getLsbD 5) ++ BitVec.ofBool (v.getLsbD 4) ++ v.extractLsb' 0 4 := by
  refine BitVec.eq_of_getLsbD_eq fun i hi => ?_
  -- `erw`: the width 32 is the sum of the fields' widths by evaluation only
  erw [BitVec.getLsbD_append, BitVec.getLsbD_append, BitVec.getLsbD_append]
  simp only [BitVec.getLsbD_extractLsb', BitVec.getLsbD_ofBool]
  grind

theorem encode_of_decodeCmd {v : Word} {i : Instr} (h : decodeCmd v = .command i) : encode i = v := by
  have hv := word_eq_fields v
  simp only [decodeCmd] at h
  split at h
  · cases h
  · rename_i hrsv
    rw [not_not.1 hrsv] at hv
    split at h
    · rename_i hop
      split at h
      · cases h
      · rename_i hborder
        cases h
        rw [hop, (Bool.not_eq_true _).mp hborder] at hv
        exact hv.symm
    · split at h
      · rename_i hop
        cases h
        rw [hop] at hv
        exact hv.symm
      · cases h

theorem extractLsb'_eq_zero_iff {w : Nat} (v : BitVec w) (start n : Nat) :
    v.extractLsb' start n = 0 ↔ ∀ i < n, v.getLsbD (start + i) = false := by
  refine ⟨fun h i hi => ?_, fun h => BitVec.eq_of_getLsbD_eq fun i hi => ?_⟩
  · simpa [hi] using congrArg (BitVec.getLsbD · i) h
  · simp [hi, h i hi]

namespace Machine

theorem State.getLsbD_statusWord (s : State) (i : Nat) :
    s.statusWord.getLsbD i =
      match i with
      | 0 => decide (s.phase = .busy)
      | 1 => decide (s.phase = .done)
      | 2 => decide (s.phase = .err)
      | 3 => s.hzd
      | n + 4 => s.errcode.getLsbD n := by
  rw [statusWord]
  -- `erw`: the width 32 is the sum of the fields' widths by evaluation only
  erw [BitVec.getLsbD_append, BitVec.getLsbD_append, BitVec.getLsbD_append, BitVec.getLsbD_append,
    BitVec.getLsbD_append]
  match i with
  | 0 => simp
  | 1 => simp
  | 2 => simp
  | 3 => simp
  | n + 4 => simpa using BitVec.lt_of_getLsbD

theorem State.statusWord_errcode (s : State) : s.statusWord.extractLsb' 4 4 = s.errcode := by
  refine BitVec.eq_of_getLsbD_eq fun i hi => ?_
  rw [BitVec.getLsbD_extractLsb', Nat.add_comm, s.getLsbD_statusWord]
  simp [hi]

theorem State.statusWord_upper (s : State) : s.statusWord.extractLsb' 8 24 = 0 := by
  refine (extractLsb'_eq_zero_iff ..).2 fun i _ => ?_
  rw [show 8 + i = (i + 4) + 4 by omega, s.getLsbD_statusWord]
  simp

theorem State.statusWord_phase_eq_zero_iff (s : State) :
    s.statusWord.extractLsb' 0 3 = 0 ↔ s.phase = .idle := by
  rw [extractLsb'_eq_zero_iff]
  constructor
  · intro h
    have hbusy := h 0 (by decide)
    have hdone := h 1 (by decide)
    have herr := h 2 (by decide)
    simp only [s.getLsbD_statusWord, decide_eq_false_iff_not] at hbusy hdone herr
    cases hp : s.phase <;> simp_all
  · intro h i hi
    rw [s.getLsbD_statusWord]
    match i with
    | 0 => simp [h]
    | 1 => simp [h]
    | 2 => simp [h]

/-- Settles O38, bit by bit; that `ERRCODE` is 0 outside `ERR` is the invariant's. -/
theorem statusShowsPhaseHazardAndCode : Obligations.StatusShowsPhaseHazardAndCode := by
  intro s hs
  have hbits := s.getLsbD_statusWord
  exact ⟨by simp only [hbits, decide_eq_true_eq], by simp only [hbits, decide_eq_true_eq],
    by simp only [hbits, decide_eq_true_eq], hbits 3, s.statusWord_errcode,
    fun hp => s.statusWord_errcode.trans (hs.error.quiet hp), s.statusWord_upper, s.statusWord_phase_eq_zero_iff⟩

end Machine
end Sys2Proof
end

section
/-!
One host access, said by its effect on the engine: what it can change, in which phase, and by which access.
-/

namespace Sys2Proof.Machine

/-- A `CMD` write, whatever its word, is an issue of that word. -/
theorem runAccess_cmd (v : Word) (s : State) :
    runAccess (.writeReg 0x08 v) s = .next (issue v ((commandOf v).bind requiredOf) s) := by
  cases hd : decodeCmd v with
  | illegal why =>
    have hc : commandOf v = none := by simp only [commandOf, hd]
    rw [hc]
    show writeTo .cmd v s = _
    simp only [writeTo, hd]
    rfl
  | command i =>
    have hc : commandOf v = some i := commandOf_eq_some.2 hd
    have hw : decodeWrite 0x08 v = some i := (decodeWrite_cmd v).trans hc
    rw [hc, runAccess_write_instr hw]
    rcases exec_cases i s with ⟨f, hf, -, he⟩ | ⟨r, rfl, -⟩
    · rw [he, encode_of_decodeCmd hd, ← hf]
      rfl
    · exact absurd hd (decodeCmd_ne_srst v r)

/-- The effects a host access can have on the engine: `AccessEffect s a t` says that the access `a` may take `s` to `t`. -/
inductive AccessEffect (s : State) : Access → State → Prop
  /-- The host may have read something; the engine is as before. -/
  | quiet (a : Access) (rs : List Word) (n : Nat) : AccessEffect s a { s with reads := rs, draws := n }
  /-- R247: in `BUSY`, every access but a `STATUS` read and a `CTRL` write sets `HZD`, and does nothing else to the engine. -/
  | hazard (a : Access) (rs : List Word) (n : Nat) (hbusy : s.phase = .busy) (ha : a.allowedInBusy = false) :
      AccessEffect s a { s with reads := rs, draws := n, hzd := true }
  /-- R195: `SRST`, in any phase. -/
  | softReset (v : Word) (hv : v.getLsbD 0 = true) : AccessEffect s (.writeReg 0x10 v) (softReset s)
  /-- R118, R119: an issue that a check refuses. -/
  | refuse (v : Word) (e : ErrorKind) (hp : s.phase = .idle ∨ s.phase = .done)
      (he : s.commandError ((commandOf v).bind requiredOf) = some e) :
      AccessEffect s (.writeReg 0x08 v) (raiseError e { s with cmd := v })
  /-- R118, R119: an issue that passes the checks. -/
  | accept (v : Word) (i : Instr) (hp : s.phase = .idle ∨ s.phase = .done) (hv : commandOf v = some i)
      (he : s.commandError (requiredOf i) = none) :
      AccessEffect s (.writeReg 0x08 v) { s with cmd := v, phase := .busy }
  /-- R191: a write to `WIDTH` outside `BUSY`. -/
  | setWidth (off : Nat) (v : Word) (hr : regAt off = some .width) (hbusy : s.phase ≠ .busy) :
      AccessEffect s (.writeReg off v) { s with width := v }
  /-- R191: a write to `HEIGHT` outside `BUSY`. -/
  | setHeight (off : Nat) (v : Word) (hr : regAt off = some .height) (hbusy : s.phase ≠ .busy) :
      AccessEffect s (.writeReg off v) { s with height := v }
  /-- R194: a store in range outside `BUSY`. -/
  | store (space : Space) (b : Nat) (v : Byte) (hbusy : s.phase ≠ .busy) (hb : b < s.params.bufBytes) :
      AccessEffect s (.writeMem space b v) (s.withMem space ((s.mem space).write b v))

theorem AccessEffect.same (s : State) (a : Access) : AccessEffect s a s := .quiet a s.reads s.draws

theorem AccessEffect.markHazard {s : State} {a : Access} (hbusy : s.phase = .busy) (ha : a.allowedInBusy = false) :
    AccessEffect s a s.markHazard := .hazard a s.reads s.draws hbusy ha

theorem issue_effect (v : Word) (s : State) :
    AccessEffect s (.writeReg 0x08 v) (issue v ((commandOf v).bind requiredOf) s) := by
  rcases issue_cases v ((commandOf v).bind requiredOf) s with ⟨hp, h⟩ | ⟨-, h⟩ | ⟨hbusy, h⟩
  · rw [h]
    rcases issueNow_cases v ((commandOf v).bind requiredOf) s with ⟨e, he, h⟩ | ⟨he, h⟩
    · rw [h]
      exact .refuse v e hp he
    · rw [h]
      cases hc : commandOf v with
      | none => rw [hc] at he; cases he
      | some i => rw [hc] at he; exact .accept v i hp hc he
  · rw [h]
    exact .same s _
  · rw [h]
    exact .markHazard hbusy rfl

theorem readRegister_effect {off : Nat} {r : Reg} (hr : regAt off = some r) (s : State) :
    AccessEffect s (.readReg off) (readRegister r s) := by
  have hoff : r ≠ .status → (Access.readReg off).allowedInBusy = false := by
    intro hne
    refine beq_eq_false_iff_ne.2 ?_
    rintro rfl
    exact hne (Option.some.inj hr).symm
  rcases readRegister_cases r s with ⟨-, h⟩ | ⟨-, -, h⟩ | ⟨hbusy, hne, h⟩ | ⟨hbusy, hne, -, -, h⟩
  · rw [h]
    exact .quiet _ _ _
  · rw [h]
    exact .quiet _ _ _
  · rw [h]
    exact .hazard _ _ _ hbusy (hoff (by rcases hne with rfl | rfl <;> decide))
  · rw [h]
    exact .hazard _ _ _ hbusy (hoff hne)

theorem writeRegister_effect {off : Nat} {r : Reg} (hr : regAt off = some r) (hctrl : r ≠ .ctrl) (v : Word) (s : State) :
    AccessEffect s (.writeReg off v) (writeRegister r v s) := by
  have hoff : (Access.writeReg off v).allowedInBusy = false := by
    refine beq_eq_false_iff_ne.2 ?_
    rintro rfl
    exact hctrl (Option.some.inj hr).symm
  rcases writeRegister_cases r v s with ⟨hbusy, h⟩ | ⟨hbusy, rfl, h⟩ | ⟨hbusy, rfl, h⟩ | ⟨-, -, -, h⟩
  · rw [h]
    exact .markHazard hbusy hoff
  · rw [h]
    exact .setWidth off v hr hbusy
  · rw [h]
    exact .setHeight off v hr hbusy
  · rw [h]
    exact .same s _

theorem readPort_effect (space : Space) (b : Nat) (s : State) :
    AccessEffect s (.readMem space b) (readPort space b s) := by
  rcases readPort_cases space b s with ⟨hbusy, h⟩ | ⟨-, h⟩ | ⟨c, -, -, -, h⟩
  · rw [h]
    exact .hazard _ _ _ hbusy rfl
  · rw [h]
    exact .quiet _ _ _
  · rw [h]
    exact .quiet _ _ _

theorem writePort_effect (space : Space) (b : Nat) (v : Byte) (s : State) :
    AccessEffect s (.writeMem space b v) (writePort space b v s) := by
  rcases writePort_cases space b v s with ⟨hbusy, h⟩ | ⟨-, -, h⟩ | ⟨hbusy, hb, h⟩
  · rw [h]
    exact .markHazard hbusy rfl
  · rw [h]
    exact .same s _
  · rw [h]
    exact .store space b v hbusy hb

/-- A host access that answers a next state has one of the effects. -/
theorem runAccess_effect {a : Access} {s t : State} (h : runAccess a s = .next t) : AccessEffect s a t := by
  rcases runAccess_next h with ⟨off, r, rfl, hr, rfl⟩ | ⟨off, v, i, rfl, hd, he⟩ | ⟨v, off, rfl, hr, -, -⟩ |
    ⟨v, off, rfl, -, -, rfl⟩ | ⟨off, v, r, rfl, hr, -, hctrl, rfl⟩ | ⟨space, b, rfl, rfl⟩ | ⟨space, b, v, rfl, rfl⟩
  · exact readRegister_effect hr s
  · rcases decodeWrite_cases hd with ⟨hr, -⟩ | ⟨hr, hd⟩
    · cases regAt_eq_cmd hr
      exact Host.Outcome.next.inj ((runAccess_cmd v s).symm.trans h) ▸ issue_effect v s
    · cases regAt_eq_ctrl hr
      obtain ⟨hv, rfl⟩ := decodeCtrl_eq_some hd
      exact Host.Outcome.next.inj he ▸ .softReset v hv
  · cases regAt_eq_cmd hr
    exact Host.Outcome.next.inj ((runAccess_cmd v s).symm.trans h) ▸ issue_effect v s
  · exact .same _ _
  · exact writeRegister_effect hr hctrl v s
  · exact readPort_effect space b s
  · exact writePort_effect space b v s

/-- The only accesses `POLL` and `COPYBACK` write with go below `CMD`: a turn that writes `CMD` or a later register is that
access itself. -/
theorem Turn.eq_access_of_writeReg {turn : Turn} {off : Nat} {v : Word} (h : turn.access? = some (.writeReg off v))
    (hoff : 0x08 ≤ off) : turn = .host (.access (.writeReg off v)) := by
  match turn, h with
  | .host (.access a), h => rw [Option.some.inj h]
  | .host (.copyback (.setWidth w _)), h => cases h; omega
  | .host (.copyback (.setHeight w)), h => cases h; omega

/-- A turn that writes `CTRL` with bit 0 set is a reset. -/
theorem Turn.resets_of_ctrl_write {turn : Turn} {v : Word} (h : turn.access? = some (.writeReg 0x10 v))
    (hv : v.getLsbD 0 = true) : turn.resets = true := by
  rw [Turn.eq_access_of_writeReg h (by decide)]
  simpa only [Turn.resets, beq_self_eq_true, Bool.true_and] using hv

end Sys2Proof.Machine
end

section
/-!
The end of a command: a completion is `finish` with an image that fits, whichever the command.
-/

namespace Sys2Proof.Machine

/-- The result image of `ow` by `oh` pixels is a legal one, fits DST, and takes every store of the body (R116, R121). -/
structure ResultFits (s : State) (ow oh : Nat) (pack : Bool) (body : List (Nat × Option Byte)) : Prop where
  width_pos : 0 < ow
  height_pos : 0 < oh
  width_lt : ow < 2 ^ 31
  height_lt : oh < 2 ^ 31
  size_le : bufSize ow oh pack ≤ s.params.bufBytes
  stores : ∀ w ∈ body, w.1 < bufSize ow oh pack

/-- What passes the checks of issue are two 31-bit dimensions whose needed size fits. -/
theorem dims_of_accepted {s : State} {f : Nat → Nat → Nat} (h : s.commandError (some f) = none) :
    0 < s.imgWidth.toNat ∧ s.imgWidth.toNat < 2 ^ 31 ∧ 0 < s.imgHeight.toNat ∧ s.imgHeight.toNat < 2 ^ 31 ∧
      f s.imgWidth.toNat s.imgHeight.toNat ≤ s.params.bufBytes := by
  obtain ⟨g, hg, hw, hh, hsize⟩ := commandError_eq_none_iff.1 h
  cases hg
  have hw' : s.imgWidth < 2 ^ 31 := BitVec.toInt_lt
  have hh' : s.imgHeight < 2 ^ 31 := BitVec.toInt_lt
  exact ⟨by omega, by omega, by omega, by omega, hsize⟩

theorem resultFits_rot90 {s : State} {pack : Bool} (h : s.commandError (some (rot90Required pack)) = none) :
    ResultFits s s.imgHeight.toNat s.imgWidth.toNat pack
      (rot90Writes pack s.imgWidth.toNat s.imgHeight.toNat s.src) := by
  obtain ⟨hw, hw', hh, hh', hsize⟩ := dims_of_accepted h
  refine ⟨hh, hw, hh', hw', (Nat.le_max_right ..).trans hsize, fun w hmem => ?_⟩
  obtain ⟨x, y, c, hx, hy, hc, rfl⟩ := mem_rot90Writes.1 hmem
  exact addr_lt (le_stride _ _) hy (by omega) hc

theorem resultFits_blur5 {s : State} {border pack : Bool} (h : s.commandError (some (blur5Required pack)) = none) :
    ResultFits s s.imgWidth.toNat s.imgHeight.toNat pack
      (blur5Writes s.params.kernel border pack s.imgWidth.toNat s.imgHeight.toNat s.src) := by
  obtain ⟨hw, hw', hh, hh', hsize⟩ := dims_of_accepted h
  refine ⟨hw, hh, hw', hh', hsize, fun w hmem => ?_⟩
  obtain ⟨x, y, c, hx, hy, hc, hpix⟩ := mem_blur5Writes.1 hmem
  rw [blur5PixelWrites_addr hpix]
  exact addr_lt (le_stride _ _) hx hy hc

theorem complete_eq_finish {s t : State} (h : complete s = .next t) :
    (commandOf s.cmd).isSome ∧
      ∃ ow oh pack body, ResultFits s ow oh pack body ∧ t = finish ow oh pack body s := by
  obtain ⟨i, hi, he, rfl⟩ := complete_next h
  refine ⟨by rw [hi]; rfl, ?_⟩
  cases i with
  | rot90 pack => exact ⟨_, _, _, _, resultFits_rot90 he, rfl⟩
  | blur5 border pack => exact ⟨_, _, _, _, resultFits_blur5 he, rfl⟩
  | srst ignored => cases he

end Sys2Proof.Machine
end

section
/-!
The invariant, one lemma for each effect a step can have, and from them that every step keeps it.
-/

namespace Sys2Proof.Machine

theorem State.ErrorInv.of_code_zero {s : State} (hp : s.phase ≠ .err) (hcode : s.errcode = 0) : s.ErrorInv :=
  ⟨fun _ => hcode, fun h => absurd h hp, fun h => absurd h hp⟩

theorem State.resetWith_inv {p : Params} (h : p.wf = true) : (State.resetWith p).Inv where
  params := h
  error := .of_code_zero nofun rfl
  memory := ⟨.nil, .nil, nofun, nofun⟩
  result := ⟨rfl, Nat.zero_le _, ⟨Int.le_refl 0, Int.le_refl 0⟩, fun _ => ⟨rfl, rfl, rfl, rfl, rfl⟩, nofun⟩
  busy := nofun

/-- Settles O49: the reset state meets every clause by evaluation, and `Config.params` is well-formed. -/
theorem resetStateIsLegal : Obligations.ResetStateIsLegal :=
  ⟨fun _ h => State.resetWith_inv h, State.resetWith_inv (by decide)⟩

/-- The list of turns is the host's: the invariant does not look at it. -/
theorem State.Inv.with_turns {s : State} (h : s.Inv) (ts : List Turn) : ({ s with turns := ts } : State).Inv :=
  h.of_same_engine ts s.reads s.draws s.hzd

theorem State.Inv.hardwareReset {s : State} (h : s.Inv) : (hardwareReset s).Inv :=
  (State.resetWith_inv h.params).of_same_engine s.turns s.reads s.draws false

theorem State.Inv.softReset {s : State} (h : s.Inv) : (softReset s).Inv := by
  have hreset := (State.resetWith_inv h.params).result
  refine ⟨h.params, .of_code_zero nofun rfl, ?_,
    ⟨hreset.size, hreset.fits, hreset.signed, hreset.idle, nofun⟩, nofun⟩
  by_cases hbusy : s.phase = .busy
  · exact ⟨h.memory.srcWf, by simp [hbusy], h.memory.srcWithin, by simp [hbusy]⟩
  · exact ⟨h.memory.srcWf, by simpa [hbusy] using h.memory.dstWf, h.memory.srcWithin,
      by simpa [hbusy] using h.memory.dstWithin⟩

theorem State.Inv.operands {s : State} (h : s.Inv) (hbusy : s.phase ≠ .busy) (w v : Word) :
    ({ s with width := w, height := v } : State).Inv :=
  ⟨h.params, ⟨h.error.quiet, h.error.coded, h.error.illegalWord⟩,
    ⟨h.memory.srcWf, h.memory.dstWf, h.memory.srcWithin, h.memory.dstWithin⟩,
    ⟨h.result.size, h.result.fits, h.result.signed, h.result.idle, h.result.done⟩, fun hp => absurd hp hbusy⟩

/-- The invariant looks at the memories through `State.MemoryInv` only. -/
theorem State.Inv.with_memories {s : State} (h : s.Inv) {m n : Memory}
    (hmem : ({ s with src := m, dst := n } : State).MemoryInv) : ({ s with src := m, dst := n } : State).Inv :=
  ⟨h.params, ⟨h.error.quiet, h.error.coded, h.error.illegalWord⟩, hmem,
    ⟨h.result.size, h.result.fits, h.result.signed, h.result.idle, h.result.done⟩, h.busy⟩

theorem State.Inv.store {s : State} (h : s.Inv) (space : Space) {b : Nat} (hb : b < s.params.bufBytes) (v : Byte) :
    (s.withMem space ((s.mem space).write b v)).Inv := by
  obtain ⟨hsrc, hdst, hsrcIn, hdstIn⟩ := h.memory
  cases space with
  | src => exact h.with_memories ⟨Memory.write_wf hsrc b v, hdst, Memory.write_within hsrcIn hb v, hdstIn⟩
  | dst => exact h.with_memories ⟨hsrc, Memory.write_wf hdst b v, hsrcIn, Memory.write_within hdstIn hb v⟩

theorem ErrorKind.code_cases (e : ErrorKind) : e.code = 1 ∨ e.code = 2 ∨ e.code = 3 := by
  cases e <;> decide

theorem ErrorKind.code_eq_one_iff (e : ErrorKind) : e.code = 1 ↔ e = .illegal := by
  cases e <;> decide

/-- R119: of the three refusals, `ERR_ILLEGAL` is the one of words that decode to no command. -/
theorem commandError_illegal_iff {s : State} {v : Word} {e : ErrorKind}
    (h : s.commandError ((commandOf v).bind requiredOf) = some e) : e = .illegal ↔ commandOf v = none := by
  cases hc : commandOf v with
  | none =>
    rw [hc] at h
    simpa using (Option.some.inj h).symm
  | some i =>
    rw [hc] at h
    have hf : ∃ f, requiredOf i = some f := by
      cases i with
      | rot90 pack => exact ⟨_, rfl⟩
      | blur5 border pack => exact ⟨_, rfl⟩
      | srst ignored => exact absurd (commandOf_eq_some.1 hc) (decodeCmd_ne_srst v ignored)
    obtain ⟨f, hf⟩ := hf
    simp only [Option.bind_some, hf, State.commandError] at h
    split at h
    · cases h
      simp
    · split at h
      · cases h
        simp
      · cases h

theorem State.Inv.refuse {s : State} (h : s.Inv) {v : Word} {e : ErrorKind}
    (he : s.commandError ((commandOf v).bind requiredOf) = some e) :
    (raiseError e { s with cmd := v }).Inv :=
  ⟨h.params, ⟨fun hp => absurd rfl hp, fun _ => e.code_cases,
      fun _ => e.code_eq_one_iff.trans (commandError_illegal_iff he)⟩,
    ⟨h.memory.srcWf, h.memory.dstWf, h.memory.srcWithin, h.memory.dstWithin⟩,
    ⟨h.result.size, h.result.fits, h.result.signed, nofun, nofun⟩, nofun⟩

theorem State.Inv.accept {s : State} (h : s.Inv) (hp : s.phase = .idle ∨ s.phase = .done) {v : Word} {i : Instr}
    (hv : commandOf v = some i) (he : s.commandError (requiredOf i) = none) :
    ({ s with cmd := v, phase := .busy } : State).Inv := by
  have hcode : s.errcode = 0 := h.error.quiet (by rcases hp with hp | hp <;> simp [hp])
  exact ⟨h.params, .of_code_zero nofun hcode,
    ⟨h.memory.srcWf, h.memory.dstWf, h.memory.srcWithin, h.memory.dstWithin⟩,
    ⟨h.result.size, h.result.fits, h.result.signed, nofun, nofun⟩,
    fun _ => ⟨i, hv, (commandError_congr (requiredOf i) rfl rfl rfl).trans he⟩⟩

/-- The result registers after a completion: no value wraps, because the image fits in fewer than `2^32` bytes (R116). -/
theorem finish_resultInv {s : State} (hparams : s.params.wf = true) (hcmd : (commandOf s.cmd).isSome)
    {ow oh : Nat} {pack : Bool} {body : List (Nat × Option Byte)} (h : ResultFits s ow oh pack body) :
    (finish ow oh pack body s).ResultInv := by
  obtain ⟨hw, hh, hw', hh', hle, -⟩ := h
  have hbuf : s.params.bufBytes < 2 ^ 32 := by
    simp only [Params.wf, Bool.and_eq_true, decide_eq_true_eq] at hparams
    exact hparams.2
  have hstride := stride_le_bufSize (w := ow) pack hh
  have toNat_reg : ∀ {n}, n < 2 ^ 32 → (BitVec.ofNat 32 n).toNat = n := fun h =>
    (BitVec.toNat_ofNat ..).trans (Nat.mod_eq_of_lt h)
  have hwidth := toNat_reg (n := ow) (by omega)
  have hheight := toNat_reg (n := oh) (by omega)
  have hsize := toNat_reg (n := bufSize ow oh pack) (by omega)
  refine ⟨?_, hsize.trans_le hle, ⟨?_, ?_⟩, nofun, fun _ => ⟨hcmd, hw.trans_eq hwidth.symm, hh.trans_eq hheight.symm⟩⟩
  · rw [State.finish_outSize, State.finish_outStride, State.finish_outHeight, hsize, hheight, toNat_reg (by omega)]
    rfl
  · rw [State.finish_outWidth, BitVec.toInt_eq_toNat_of_lt (by omega)]
    exact Int.natCast_nonneg _
  · rw [State.finish_outHeight, BitVec.toInt_eq_toNat_of_lt (by omega)]
    exact Int.natCast_nonneg _

theorem State.Inv.finish {s : State} (h : s.Inv) (hbusy : s.phase = .busy) (hcmd : (commandOf s.cmd).isSome)
    {ow oh : Nat} {pack : Bool} {body : List (Nat × Option Byte)} (hfits : ResultFits s ow oh pack body) :
    (finish ow oh pack body s).Inv := by
  obtain ⟨hsrc, hdst, hsrcIn, hdstIn⟩ := h.memory
  have hcode : s.errcode = 0 := h.error.quiet (by simp [hbusy])
  have hzero := Memory.writeAll_within hdstIn (zeroWrites (bufSize ow oh pack))
    fun w hw => (zeroWrites_lt hw).trans_le hfits.size_le
  exact ⟨h.params, .of_code_zero nofun hcode,
    ⟨hsrc, Memory.writeAll_wf (Memory.writeAll_wf hdst _) body, hsrcIn,
      Memory.writeAll_within hzero body fun w hw => (hfits.stores w hw).trans_le hfits.size_le⟩,
    finish_resultInv h.params hcmd hfits, nofun⟩

/-- Every effect a host access can have keeps the invariant. -/
theorem AccessEffect.keeps_inv {s t : State} {a : Access} (h : AccessEffect s a t) (hs : s.Inv) : t.Inv := by
  cases h with
  | quiet _ rs n => exact hs.of_same_engine s.turns rs n s.hzd
  | hazard _ rs n _ _ => exact hs.of_same_engine s.turns rs n true
  | softReset v _ => exact hs.softReset
  | refuse v e _ he => exact hs.refuse he
  | accept v i hp hv he => exact hs.accept hp hv he
  | setWidth _ v _ hbusy => exact hs.operands hbusy v s.height
  | setHeight _ v _ hbusy => exact hs.operands hbusy s.width v
  | store space b v _ hb => exact hs.store space hb v

/-- Settles O50: the reset input, a completion, a wait and every effect of a host access keep the invariant. -/
theorem everyStepKeepsTheInvariant : Obligations.EveryStepKeepsTheInvariant := by
  intro s t hs h
  have hafter : s.afterTurn.Inv := hs.with_turns s.turns.tail
  rcases step_next h with ⟨-, rfl⟩ | ⟨hbusy, -, ts, hc⟩ | ⟨-, -, rfl⟩ | ⟨turn, a, u, ts, -, -, hu, rfl⟩
  · exact hafter.hardwareReset
  · obtain ⟨hcmd, ow, oh, pack, body, hfits, rfl⟩ := complete_eq_finish hc
    exact (hs.with_turns ts).finish hbusy hcmd hfits
  · exact hafter
  · exact ((runAccess_effect hu).keeps_inv hafter).with_turns ts

end Sys2Proof.Machine
end

section
/-!
What one step can change: the parameters, a byte of SRC, `HZD` and the phase, each read off the effects of a step.
-/

namespace Sys2Proof.Machine

theorem issue_busy {s : State} (hp : s.phase = .busy) (word : Word) (need : Option (Nat → Nat → Nat)) :
    issue word need s = s.markHazard := by simp only [issue, hp]

theorem issue_err {s : State} (hp : s.phase = .err) (word : Word) (need : Option (Nat → Nat → Nat)) :
    issue word need s = s := by simp only [issue, hp]

/-- A turn that writes `CMD` issues the word on the state with the turn taken off. -/
theorem step_cmd_write (s : State) (rest : List Turn) (v : Word) :
    step { s with turns := .host (.access (.writeReg 0x08 v)) :: rest } =
      .next (issue v ((commandOf v).bind requiredOf) { s with turns := rest }) :=
  (step_access rfl).trans (runAccess_cmd v _)

/-- Settles O14: a `CMD` write is an issue, which only marks the hazard in `BUSY` and does nothing in `ERR`. -/
theorem commandWriteIsDroppedInBusyAndErr : Obligations.CommandWriteIsDroppedInBusyAndErr := by
  intro s rest v
  rw [step_cmd_write]
  refine ⟨fun hp => ?_, fun hp => ?_⟩
  · rw [issue_busy (s := { s with turns := rest }) hp]
    rfl
  · rw [issue_err (s := { s with turns := rest }) hp]

theorem AccessEffect.params_eq {s t : State} {a : Access} (h : AccessEffect s a t) : t.params = s.params := by
  cases h with
  | store space b v _ _ => cases space <;> rfl
  | _ => rfl

theorem step_params_eq {s t : State} (h : step s = .next t) : t.params = s.params := by
  rcases step_next h with ⟨-, rfl⟩ | ⟨-, -, ts, hc⟩ | ⟨-, -, rfl⟩ | ⟨turn, a, u, ts, -, -, hu, rfl⟩
  · rfl
  · obtain ⟨-, ow, oh, pack, body, -, rfl⟩ := complete_eq_finish hc
    rfl
  · rfl
  · exact (runAccess_effect hu).params_eq

/-- Settles O48: a step keeps the whole of the parameters. -/
theorem noStepChangesTheParameters : Obligations.NoStepChangesTheParameters := by
  intro s t h
  rw [step_params_eq h]
  exact ⟨rfl, rfl⟩

/-- Of the effects of a host access, only a store to SRC changes a byte of SRC: the one it names. -/
theorem AccessEffect.src_changed {s t : State} {a : Access} (h : AccessEffect s a t) {b : Nat}
    (hne : t.src.read? b ≠ s.src.read? b) :
    ∃ v, a = .writeMem .src b v ∧ s.phase ≠ .busy ∧ b < s.params.bufBytes ∧ t.src.read? b = some v := by
  cases h with
  | store space c v hbusy hc =>
    cases space with
    | src =>
      rw [State.withMem_src_src, State.mem_src, Memory.read?_write] at hne ⊢
      by_cases hcb : c = b
      · subst hcb
        exact ⟨v, rfl, hbusy, hc, if_pos rfl⟩
      · exact absurd (if_neg hcb) hne
    | dst => exact absurd rfl hne
  | _ => exact absurd rfl hne

/-- Settles O30: neither a completion nor a wait changes SRC, and of the host's accesses only a store does. -/
theorem sourceChangesOnlyByHostStores : Obligations.SourceChangesOnlyByHostStores := by
  intro s t b h hne
  rcases step_next h with ⟨hturn, -⟩ | ⟨-, -, ts, hc⟩ | ⟨-, -, rfl⟩ | ⟨turn, a, u, ts, hturn, ha, hu, rfl⟩
  · exact .inl hturn
  · obtain ⟨-, ow, oh, pack, body, -, rfl⟩ := complete_eq_finish hc
    exact absurd rfl hne
  · exact absurd rfl hne
  · obtain ⟨v, rfl, hbusy, hb, hv⟩ := (runAccess_effect hu).src_changed hne
    exact .inr ⟨turn, v, hturn, ha, hbusy, hb, hv⟩

/-- `HZD` after a host access: as before, set by a hazard in `BUSY`, or 0 after a soft reset. -/
theorem AccessEffect.hzd_cases {s t : State} {a : Access} (h : AccessEffect s a t) :
    t.hzd = s.hzd ∨
    (t.hzd = true ∧ s.phase = .busy ∧ a.allowedInBusy = false) ∨
    (t.hzd = false ∧ ∃ v, a = .writeReg 0x10 v ∧ v.getLsbD 0 = true) := by
  cases h with
  | hazard _ _ _ hbusy ha => exact .inr (.inl ⟨rfl, hbusy, ha⟩)
  | softReset v hv => exact .inr (.inr ⟨rfl, v, rfl, hv⟩)
  | store space _ _ _ _ => cases space <;> exact .inl rfl
  | _ => exact .inl rfl

theorem step_hzd_cases {s t : State} (h : step s = .next t) :
    t.hzd = s.hzd ∨
    (t.hzd = true ∧ s.phase = .busy ∧
      ∃ turn a, s.turns.head? = some turn ∧ turn.access? = some a ∧ a.allowedInBusy = false) ∨
    (t.hzd = false ∧ ∃ turn, s.turns.head? = some turn ∧ turn.resets = true) := by
  rcases step_next h with ⟨hturn, rfl⟩ | ⟨-, -, ts, hc⟩ | ⟨-, -, rfl⟩ | ⟨turn, a, u, ts, hturn, ha, hu, rfl⟩
  · exact .inr (.inr ⟨rfl, .reset, hturn, rfl⟩)
  · obtain ⟨-, ow, oh, pack, body, -, rfl⟩ := complete_eq_finish hc
    exact .inl rfl
  · exact .inl rfl
  · rcases (runAccess_effect hu).hzd_cases with hsame | ⟨hset, hbusy, hallowed⟩ | ⟨hclear, v, rfl, hv⟩
    · exact .inl hsame
    · exact .inr (.inl ⟨hset, hbusy, turn, a, hturn, ha, hallowed⟩)
    · exact .inr (.inr ⟨hclear, turn, hturn, Turn.resets_of_ctrl_write ha hv⟩)

/-- Settles O46: only a hazard sets `HZD`, and only the two resets clear it. -/
theorem hazardIsSetInBusyAndClearedByReset : Obligations.HazardIsSetInBusyAndClearedByReset := by
  intro s t h
  rcases step_hzd_cases h with hsame | ⟨hset, hbusy, hazard⟩ | ⟨hclear, hreset⟩
  · rw [hsame]
    exact ⟨fun h0 h1 => absurd (h0.symm.trans h1) nofun, fun h1 h0 => absurd (h0.symm.trans h1) nofun⟩
  · exact ⟨fun _ _ => ⟨hbusy, hazard⟩, fun _ h0 => absurd (h0.symm.trans hset) nofun⟩
  · exact ⟨fun _ h1 => absurd (hclear.symm.trans h1) nofun, fun _ _ => hreset⟩

/-- The phase after a host access: as before, `IDLE` after a soft reset, `BUSY` or `ERR` after a `CMD` write in `IDLE` or
`DONE`. -/
theorem AccessEffect.phase_cases {s t : State} {a : Access} (h : AccessEffect s a t) :
    t.phase = s.phase ∨
    (t.phase = .idle ∧ ∃ v, a = .writeReg 0x10 v ∧ v.getLsbD 0 = true) ∨
    ((s.phase = .idle ∨ s.phase = .done) ∧ (t.phase = .busy ∨ t.phase = .err) ∧ ∃ v, a = .writeReg 0x08 v) := by
  cases h with
  | softReset v hv => exact .inr (.inl ⟨rfl, v, rfl, hv⟩)
  | refuse v e hp _ => exact .inr (.inr ⟨hp, .inr rfl, v, rfl⟩)
  | accept v i hp _ _ => exact .inr (.inr ⟨hp, .inl rfl, v, rfl⟩)
  | store space _ _ _ _ => cases space <;> exact .inl rfl
  | _ => exact .inl rfl

/-- Settles O47: the three arrows are those of the resets, of a `CMD` write, and of a completion. -/
theorem phaseChangesAlongItsTable : Obligations.PhaseChangesAlongItsTable := by
  intro s t h hne
  rcases step_next h with ⟨hturn, rfl⟩ | ⟨hbusy, hturn, ts, hc⟩ | ⟨-, -, rfl⟩ | ⟨turn, a, u, ts, hturn, ha, hu, rfl⟩
  · exact .inl ⟨rfl, .reset, hturn, rfl⟩
  · obtain ⟨-, ow, oh, pack, body, -, rfl⟩ := complete_eq_finish hc
    exact .inr (.inr ⟨hbusy, rfl, hturn⟩)
  · exact absurd rfl hne
  · rcases (runAccess_effect hu).phase_cases with heq | ⟨hidle, v, rfl, hv⟩ | ⟨hp, hphase, v, rfl⟩
    · exact absurd heq.symm hne
    · exact .inl ⟨hidle, turn, hturn, Turn.resets_of_ctrl_write ha hv⟩
    · exact .inr (.inl ⟨hp, hphase, v, hturn.trans (congrArg some (Turn.eq_access_of_writeReg ha (Nat.le_refl _)))⟩)

end Sys2Proof.Machine
end

section
/-!
Which register accesses exist (R68): an access at an offset without a register is refused, and every other one has a step.
-/

namespace Sys2Proof.Machine

theorem runAccess_readReg_refused {off : Nat} (h : regAt off = none) (s : State) :
    runAccess (.readReg off) s = .refused (.noSuchRegister off) := by simp only [runAccess, h]

theorem runAccess_writeReg_refused {off : Nat} (h : regAt off = none) (v : Word) (s : State) :
    runAccess (.writeReg off v) s = .refused (.noSuchRegister off) := by simp only [runAccess, h]

theorem Access.readReg_wf_iff (off : Nat) : (Access.readReg off).wf = true ↔ off % 4 = 0 ∧ off < 0x40 := by
  simp only [Access.wf, Bool.and_eq_true, beq_iff_eq, decide_eq_true_eq]

/-- The two checks on the offset do not look at the direction of the access. -/
theorem Access.writeReg_wf_iff (off : Nat) (v : Word) :
    (Access.writeReg off v).wf = true ↔ off % 4 = 0 ∧ off < 0x40 :=
  Access.readReg_wf_iff off

/-- A turn with a well-formed host access has a step in every phase. -/
theorem step_access_total {a : Access} (h : a.wf = true) (s : State) (rest : List Turn) :
    ∃ t, step { s with turns := .host (.access a) :: rest } = .next t := by
  rw [step_access rfl]
  exact runAccess_total h _

/-- Settles O37: no register stands at the offsets of the first clause, and at the others the access is well-formed. -/
theorem registerAccessNeedsAnAlignedOffset : Obligations.RegisterAccessNeedsAnAlignedOffset := by
  intro s rest off v
  refine ⟨fun hbad => ?_, fun haligned hbelow => ?_⟩
  · have hnone : regAt off = none := (regAt_eq_none_iff off).mpr hbad
    exact ⟨(step_access rfl).trans (runAccess_readReg_refused hnone _),
      (step_access rfl).trans (runAccess_writeReg_refused hnone v _)⟩
  · exact ⟨step_access_total ((Access.readReg_wf_iff off).mpr ⟨haligned, hbelow⟩) s rest,
      step_access_total ((Access.writeReg_wf_iff off v).mpr ⟨haligned, hbelow⟩) s rest⟩

end Sys2Proof.Machine
end

section
/-!
The encoding: decoding undoes encoding, and a register write that decodes is an encoding (R91, R92, R29).
-/

namespace Sys2Proof

theorem getLsbD_encode_srst (ignored : BitVec 31) (i : Nat) :
    (encode (.srst ignored)).getLsbD i =
      match i with
      | 0 => true
      | n + 1 => ignored.getLsbD n := by
  refine (BitVec.getLsbD_append (x := ignored) (y := 1#1)).trans ?_
  cases i with
  | zero => rfl
  | succ n => simp

theorem decodeCtrl_encode_srst (ignored : BitVec 31) : decodeCtrl (encode (.srst ignored)) = some (.srst ignored) := by
  have hrest : (encode (.srst ignored)).extractLsb' 1 31 = ignored := by
    refine BitVec.eq_of_getLsbD_eq fun i hi => ?_
    rw [BitVec.getLsbD_extractLsb', Nat.add_comm, getLsbD_encode_srst]
    simp [hi]
  rw [decodeCtrl, if_pos (getLsbD_encode_srst ignored 0), hrest]

/-- A `CTRL` word with bit 0 set is its bits 31:1 in front of that bit (R29). -/
theorem encode_srst_extractLsb' {v : Word} (h : v.getLsbD 0 = true) : encode (.srst (v.extractLsb' 1 31)) = v := by
  refine BitVec.eq_of_getLsbD_eq fun i hi => ?_
  rw [getLsbD_encode_srst]
  cases i with
  | zero => exact h.symm
  | succ n => simp [Nat.add_comm 1 n, show n < 31 by omega]

theorem decodeWrite_encode (i : Instr) : decodeWrite (encodeOffset i) (encode i) = some i := by
  cases i with
  | rot90 pack => exact (decodeWrite_cmd _).trans (Machine.commandOf_encode rfl)
  | blur5 border pack => exact (decodeWrite_cmd _).trans (Machine.commandOf_encode rfl)
  | srst ignored => exact (decodeWrite_ctrl _).trans (decodeCtrl_encode_srst ignored)

theorem encodeAccess_injective {i j : Instr} (h : encodeAccess i = encodeAccess j) : i = j := by
  obtain ⟨hoff, hword⟩ := Machine.Access.writeReg.inj h
  have hi := decodeWrite_encode i
  rw [hoff, hword, decodeWrite_encode j] at hi
  exact (Option.some.inj hi).symm

/-- Only `SRST` is no command. -/
theorem encodeOffset_of_decodeCmd {v : Word} {i : Instr} (h : decodeCmd v = .command i) :
    encodeOffset i = cmdOffset := by
  cases i with
  | rot90 pack => rfl
  | blur5 border pack => rfl
  | srst ignored => exact absurd h (decodeCmd_ne_srst v ignored)

theorem encodeAccess_of_decodeWrite {off : Nat} {v : Word} {i : Instr} (h : decodeWrite off v = some i) :
    encodeAccess i = .writeReg off v := by
  rcases decodeWrite_cases h with ⟨hreg, hcmd⟩ | ⟨hreg, hctrl⟩
  · rw [Machine.regAt_eq_cmd hreg, encodeAccess, encodeOffset_of_decodeCmd hcmd, encode_of_decodeCmd hcmd]
    rfl
  · obtain ⟨hbit, rfl⟩ := decodeCtrl_eq_some hctrl
    rw [Machine.regAt_eq_ctrl hreg, encodeAccess, encode_srst_extractLsb' hbit]
    rfl

/-- Settles O1: the two directions of the round trip; that an encoding determines its instruction follows from the first. -/
theorem decodeOfEncodeIsTheInstruction : Obligations.DecodeOfEncodeIsTheInstruction :=
  ⟨fun i _ => decodeWrite_encode i, fun _ _ => encodeAccess_injective, fun _ _ _ => encodeAccess_of_decodeWrite⟩

end Sys2Proof
end

section
/-!
The command words: the six that are legal (R92), the decoder in numbers (R96), and what issuing an illegal one does (R97).
-/

namespace Sys2Proof

/-! ### The six words -/

/-- The six rows of the table of R92. -/
def legalWords : List Word := [0x00000001, 0x00000021, 0x00000002, 0x00000012, 0x00000022, 0x00000032]

theorem exists_illegal_iff (v : Word) : (∃ why, decodeCmd v = .illegal why) ↔ Machine.commandOf v = none := by
  simp only [Machine.commandOf]
  split <;> simp_all

theorem isSome_commandOf_iff (v : Word) : (Machine.commandOf v).isSome ↔ v ∈ legalWords := by
  constructor
  · intro h
    obtain ⟨i, hi⟩ := Option.isSome_iff_exists.1 h
    have hdecode := Machine.commandOf_eq_some.1 hi
    rw [← encode_of_decodeCmd hdecode]
    cases i with
    | rot90 pack => cases pack <;> decide
    | blur5 border pack => cases border <;> cases pack <;> decide
    | srst ignored => exact absurd hdecode (decodeCmd_ne_srst v ignored)
  · simp only [legalWords, List.mem_cons, List.not_mem_nil, or_false]
    rintro (rfl | rfl | rfl | rfl | rfl | rfl) <;> decide

theorem exists_illegal_iff_not_mem (v : Word) : (∃ why, decodeCmd v = .illegal why) ↔ v ∉ legalWords := by
  rw [exists_illegal_iff, ← isSome_commandOf_iff, Option.not_isSome_iff_eq_none]

/-! ### The two match and mask pairs -/

/-- The bits under a mask and the bits outside it make the word. -/
theorem and_or_and_not (v mask : Word) : v &&& mask ||| v &&& ~~~mask = v := by
  rw [← BitVec.and_or_distrib_left, BitVec.or_not_self, BitVec.and_allOnes]

/-- The one bit the mask of `ROT90` leaves out is `PACK`. -/
theorem eq_encode_rot90_of_mask {v : Word} (h : v &&& 0xFFFFFFDF#32 = 0x00000001#32) :
    v = encode (.rot90 (v.getLsbD 5)) := by
  have hpack : v &&& ~~~0xFFFFFFDF#32 = if v.getLsbD 5 then 0x20#32 else 0#32 := BitVec.and_twoPow v 5
  have hv := and_or_and_not v 0xFFFFFFDF#32
  rw [h, hpack] at hv
  refine hv.symm.trans ?_
  cases v.getLsbD 5 <;> decide

/-- The two bits the mask of `BLUR5` leaves out are `BORDER` and `PACK`. -/
theorem eq_encode_blur5_of_mask {v : Word} (h : v &&& 0xFFFFFFCF#32 = 0x00000002#32) :
    v = encode (.blur5 (v.getLsbD 4) (v.getLsbD 5)) := by
  have hborder : v &&& 0x10#32 = if v.getLsbD 4 then 0x10#32 else 0#32 := BitVec.and_twoPow v 4
  have hpack : v &&& 0x20#32 = if v.getLsbD 5 then 0x20#32 else 0#32 := BitVec.and_twoPow v 5
  have hfree : v &&& ~~~0xFFFFFFCF#32 = v &&& 0x10#32 ||| v &&& 0x20#32 :=
    BitVec.and_or_distrib_left (x := v) (y := 0x10#32) (z := 0x20#32)
  have hv := and_or_and_not v 0xFFFFFFCF#32
  rw [h, hfree, hborder, hpack] at hv
  refine hv.symm.trans ?_
  cases v.getLsbD 4 <;> cases v.getLsbD 5 <;> decide

theorem exists_rot90_iff_mask (v : Word) :
    (∃ pack, decodeCmd v = .command (.rot90 pack)) ↔ v &&& 0xFFFFFFDF#32 = 0x00000001#32 := by
  constructor
  · rintro ⟨pack, h⟩
    rw [← encode_of_decodeCmd h]
    exact (Laws.EncodedWord.rot90 pack).2
  · intro h
    rw [eq_encode_rot90_of_mask h]
    exact ⟨_, Machine.commandOf_eq_some.1 (Machine.commandOf_encode rfl)⟩

theorem exists_blur5_iff_mask (v : Word) :
    (∃ border pack, decodeCmd v = .command (.blur5 border pack)) ↔ v &&& 0xFFFFFFCF#32 = 0x00000002#32 := by
  constructor
  · rintro ⟨border, pack, h⟩
    rw [← encode_of_decodeCmd h]
    exact (Laws.EncodedWord.blur5 border pack).2
  · intro h
    rw [eq_encode_blur5_of_mask h]
    exact ⟨_, _, Machine.commandOf_eq_some.1 (Machine.commandOf_encode rfl)⟩

/-- Settles O2: the six rows by evaluation, that there is no other from `encode_of_decodeCmd`, the masks bit by bit. -/
theorem commandWordsAreExactlySix : Obligations.CommandWordsAreExactlySix :=
  ⟨by decide, by decide, by decide, by decide, by decide, by decide, exists_illegal_iff_not_mem,
    exists_rot90_iff_mask, exists_blur5_iff_mask⟩

/-! ### The bit fields in numbers -/

theorem extractLsb'_eq_ofNat_iff (v : Word) (start : Nat) {n k : Nat} (hk : k < 2 ^ n) :
    v.extractLsb' start n = BitVec.ofNat n k ↔ v.toNat / 2 ^ start % 2 ^ n = k := by
  rw [BitVec.toNat_eq, BitVec.extractLsb'_toNat, Nat.shiftRight_eq_div_pow, BitVec.toNat_ofNat, Nat.mod_eq_of_lt hk]

theorem getLsbD_eq_div_mod (v : Word) (i : Nat) : v.getLsbD i = (v.toNat / 2 ^ i % 2 == 1) := by
  rw [← BitVec.testBit_toNat, Nat.testBit_eq_decide_div_mod_eq]
  rfl

/-- `decode(word)` on the word's number: 31:6 is `n / 64`, `OP` is `n % 16`, `BORDER` and `PACK` are the bits between. -/
theorem decodeCmd_eq_toNat (v : Word) :
    decodeCmd v =
      if v.toNat / 64 ≠ 0 then .illegal .reservedBits
      else if v.toNat % 16 = 1 then
        if v.toNat / 16 % 2 = 1 then .illegal .rot90Border else .command (.rot90 (v.toNat / 32 % 2 == 1))
      else if v.toNat % 16 = 2 then .command (.blur5 (v.toNat / 16 % 2 == 1) (v.toNat / 32 % 2 == 1))
      else .illegal .opcode := by
  have hrsv : v.extractLsb' 6 26 = 0 ↔ v.toNat / 64 = 0 := by
    have hmod : v.toNat / 2 ^ 6 % 2 ^ 26 = v.toNat / 64 := Nat.mod_eq_of_lt (Nat.div_lt_of_lt_mul v.isLt)
    exact hmod ▸ extractLsb'_eq_ofNat_iff v 6 (n := 26) (k := 0) (by decide)
  have hop : ∀ k < 16, v.extractLsb' 0 4 = BitVec.ofNat 4 k ↔ v.toNat % 16 = k := fun k hk => by
    simpa using extractLsb'_eq_ofNat_iff v 0 (n := 4) hk
  have hop1 : v.extractLsb' 0 4 = 1 ↔ v.toNat % 16 = 1 := hop 1 (by decide)
  have hop2 : v.extractLsb' 0 4 = 2 ↔ v.toNat % 16 = 2 := hop 2 (by decide)
  simp only [decodeCmd, ne_eq, hrsv, hop1, hop2, getLsbD_eq_div_mod, Nat.reducePow, beq_iff_eq]

/-- Settles O3, clause by clause on the word's number. -/
theorem decodeFollowsTheBitFields : Obligations.DecodeFollowsTheBitFields := by
  intro v
  simp only [decodeCmd_eq_toNat]
  refine ⟨fun hrsv => ?_, fun hrsv hop hborder => ?_, fun hrsv hop hborder => ?_, fun hrsv hop => ?_,
    fun hrsv hne1 hne2 => ?_⟩
  · exact ⟨.reservedBits, by simp [hrsv]⟩
  · simp [hrsv, hop, hborder]
  · exact ⟨.rot90Border, by simp [hrsv, hop, hborder]⟩
  · simp [hrsv, hop]
  · exact ⟨.opcode, by simp [hrsv, hne1, hne2]⟩

theorem exists_illegal_iff_toNat (v : Word) : (∃ why, decodeCmd v = .illegal why) ↔
    v.toNat / 64 ≠ 0 ∨ v.toNat % 16 = 0 ∨ 3 ≤ v.toNat % 16 ∨ v = 0x00000011#32 ∨ v = 0x00000031#32 := by
  have h11 : v = 0x00000011#32 ↔ v.toNat = 17 := BitVec.toNat_eq
  have h31 : v = 0x00000031#32 ↔ v.toNat = 49 := BitVec.toNat_eq
  rw [decodeCmd_eq_toNat, h11, h31]
  split_ifs <;> simp <;> omega

namespace Machine

theorem step_illegal_write {s : State} (hp : s.phase = .idle ∨ s.phase = .done) (rest : List Turn) {v : Word}
    (hv : commandOf v = none) :
    step { s with turns := .host (.access (.writeReg 0x08 v)) :: rest } =
      .next { s with turns := rest, cmd := v, phase := .err, errcode := 1 } := by
  rw [step_cmd_write, hv, issue_idle_or_done (s := { s with turns := rest }) hp, Option.bind_none,
    issueNow_refused (commandError_illegal _)]
  rfl

end Machine

/-- Settles O4: which words are illegal is arithmetic on the number, and issue refuses them at its first check. -/
theorem illegalWordsRaiseErrIllegal : Obligations.IllegalWordsRaiseErrIllegal :=
  ⟨exists_illegal_iff_toNat, fun _ rest v hp hv => Machine.step_illegal_write hp rest ((exists_illegal_iff v).1 hv)⟩

/-- Settles O5: a closed word is decoded by evaluation. -/
theorem writtenOutWordsDecode : Obligations.WrittenOutWordsDecode := by
  refine ⟨?_, ?_, ?_, ?_, ?_, ?_, ?_⟩ <;> decide

end Sys2Proof
end

section
/-!
The host's pseudo-operations `LOAD`, `DUMP` and `COPYBACK` (R100), each an induction over the accesses it makes.
-/

namespace Sys2Proof.Machine

/-! ### Runs -/

theorem run_of_step {s t : State} (h : step s = .next t) (k : Nat) :
    Host.Core.run core (k + 1) s = Host.Core.run core k t := by
  have hcore : core.step s = .next t := h
  simp only [Host.Core.run, hcore]

/-- `t` comes after some number of steps from `s`. -/
def Reaches (s t : State) : Prop := ∃ k, Host.Core.run core k s = .next t

theorem Reaches.refl (s : State) : Reaches s s := ⟨0, rfl⟩

theorem Reaches.of_step {s t u : State} (h : step s = .next t) (hreach : Reaches t u) : Reaches s u := by
  obtain ⟨k, hk⟩ := hreach
  exact ⟨k + 1, (run_of_step h k).trans hk⟩

theorem Reaches.trans {s t u : State} (hst : Reaches s t) (htu : Reaches t u) : Reaches s u := by
  obtain ⟨k, hk⟩ := hst
  induction k generalizing s with
  | zero => exact Host.Outcome.next.inj hk ▸ htu
  | succ k ih =>
    cases hs : core.step s with
    | next v => exact .of_step hs (ih ((run_of_step hs k).symm.trans hk))
    | fault r => simp [Host.Core.run, hs] at hk
    | refused r => simp [Host.Core.run, hs] at hk

/-! ### The accesses the pseudo-operations make, outside `BUSY` -/

theorem runAccess_store_src {s : State} (hp : s.phase ≠ .busy) {a : Nat} (ha : a < s.params.bufBytes) (v : Byte) :
    runAccess (.writeMem .src a v) s = .next { s with src := s.src.write a v } := by
  simp only [runAccess, writePort, if_neg hp, if_pos ha]
  rfl

theorem runAccess_load_dst {s : State} (hp : s.phase ≠ .busy) {a : Nat} (ha : a < s.params.bufBytes) {b : Byte}
    (hb : s.dst.read? a = some b) :
    runAccess (.readMem .dst a) s = .next { s with reads := b.setWidth 32 :: s.reads } := by
  simp only [runAccess, readPort, if_neg hp, loadByte, if_pos ha, State.mem_dst, hb]
  rfl

/-- Whether or not the byte is defined, a load changes the host's record only; of a defined byte it returns the value. -/
theorem exists_runAccess_load_dst {s : State} (hp : s.phase ≠ .busy) {a : Nat} (ha : a < s.params.bufBytes) :
    ∃ v n, runAccess (.readMem .dst a) s = .next { s with reads := v :: s.reads, draws := n } ∧
      ∀ b, s.dst.read? a = some b → v.setWidth 8 = b := by
  cases hb : s.dst.read? a with
  | none =>
    refine ⟨(Config.freeByte s.draws).setWidth 32, s.draws + 1, ?_, nofun⟩
    simp only [runAccess, readPort, if_neg hp, loadByte, if_pos ha, State.mem_dst, hb]
    rfl
  | some b =>
    refine ⟨b.setWidth 32, s.draws, runAccess_load_dst hp ha hb, fun c hc => ?_⟩
    rw [← Option.some.inj hc]
    exact BitVec.setWidth_setWidth_of_le b (by decide)

theorem runAccess_readReg {s : State} (hp : s.phase ≠ .busy) {off : Nat} {r : Reg} (hr : regAt off = some r) :
    runAccess (.readReg off) s = .next (s.pushRead (s.regValue r)) := by
  simp only [runAccess, hr, readRegister, if_neg hp]

theorem runAccess_setWidth {s : State} (hp : s.phase ≠ .busy) (v : Word) :
    runAccess (.writeReg 0x00 v) s = .next { s with width := v } := by
  have h : runAccess (.writeReg 0x00 v) s = .next (writeRegister .width v s) := rfl
  rw [h, writeRegister, if_neg hp]
  rfl

theorem runAccess_setHeight {s : State} (hp : s.phase ≠ .busy) (v : Word) :
    runAccess (.writeReg 0x04 v) s = .next { s with height := v } := by
  have h : runAccess (.writeReg 0x04 v) s = .next (writeRegister .height v s) := rfl
  rw [h, writeRegister, if_neg hp]
  rfl

/-! ### `LOAD` -/

/-- SRC after the stores of a `LOAD` from address `a` on. -/
def Memory.writeFrom (m : Memory) : Nat → List Byte → Memory
  | _, [] => m
  | a, b :: bs => (m.write a b).writeFrom (a + 1) bs

theorem Memory.read?_writeFrom (m : Memory) (a : Nat) (bytes : List Byte) (c : Nat) :
    (m.writeFrom a bytes).read? c = if a ≤ c then bytes[c - a]?.or (m.read? c) else m.read? c := by
  induction bytes generalizing m a with
  | nil => simp [Memory.writeFrom]
  | cons b bs ih =>
    rw [Memory.writeFrom, ih, Memory.read?_write]
    rcases Nat.lt_trichotomy a c with hlt | rfl | hgt
    · rw [if_pos (show a + 1 ≤ c from hlt), if_neg hlt.ne, if_pos hlt.le, show c - a = c - (a + 1) + 1 by omega,
        List.getElem?_cons_succ]
    · simp
    · rw [if_neg (show ¬ a + 1 ≤ c by omega), if_neg hgt.ne', if_neg hgt.not_ge]

theorem run_loadTurns {s : State} (hp : s.phase ≠ .busy) (rest : List Turn) {a : Nat} {bytes : List Byte}
    (hfits : a + bytes.length ≤ s.params.bufBytes) :
    Host.Core.run core bytes.length { s with turns := loadTurns a bytes ++ rest } =
      .next { s with turns := rest, src := s.src.writeFrom a bytes } := by
  induction bytes generalizing a s with
  | nil => rfl
  | cons b bs ih =>
    rw [List.length_cons] at hfits ⊢
    have hstep : step { s with turns := loadTurns a (b :: bs) ++ rest } =
        .next { s with turns := loadTurns (a + 1) bs ++ rest, src := s.src.write a b } :=
      (step_access rfl).trans
        (runAccess_store_src (s := { s with turns := loadTurns (a + 1) bs ++ rest }) hp (a := a)
          (show a < s.params.bufBytes by omega) b)
    rw [run_of_step hstep]
    exact ih (s := { s with src := s.src.write a b }) hp (show a + 1 + bs.length ≤ s.params.bufBytes by omega)

/-- Settles O39: the stores of the list, one step each, and what they leave at an address. -/
theorem loadFillsTheSource : Obligations.LoadFillsTheSource := by
  intro s bytes rest hp hfits
  refine ⟨_, run_loadTurns hp rest (by omega), rfl, fun a => ?_⟩
  rw [Memory.read?_writeFrom, if_pos (Nat.zero_le a), Nat.sub_zero]
  split <;> simp [*]

/-! ### `DUMP` -/

/-- The reads of a `DUMP` from address `a` on. -/
def dumpTurnsFrom (a n : Nat) : List Turn := (List.range' a n).map fun b => .host (.access (.readMem .dst b))

theorem dumpTurns_eq_dumpTurnsFrom (n : Nat) : dumpTurns n = dumpTurnsFrom 0 n := by
  rw [dumpTurns, dumpTurnsFrom, List.range_eq_range']

theorem run_dumpTurnsFrom {s : State} (hp : s.phase ≠ .busy) (rest : List Turn) {a : Nat} {bytes : List Byte}
    (hfits : a + bytes.length ≤ s.params.bufBytes)
    (hbytes : ∀ i b, bytes[i]? = some b → s.dst.read? (a + i) = some b) :
    Host.Core.run core bytes.length { s with turns := dumpTurnsFrom a bytes.length ++ rest } =
      .next { s with turns := rest, reads := (bytes.map fun b => b.setWidth 32).reverse ++ s.reads } := by
  induction bytes generalizing a s with
  | nil => rfl
  | cons b bs ih =>
    rw [List.length_cons] at hfits ⊢
    have hstep : step { s with turns := dumpTurnsFrom a (bs.length + 1) ++ rest } =
        .next { s with turns := dumpTurnsFrom (a + 1) bs.length ++ rest, reads := b.setWidth 32 :: s.reads } :=
      (step_access rfl).trans
        (runAccess_load_dst (s := { s with turns := dumpTurnsFrom (a + 1) bs.length ++ rest }) hp (a := a)
          (show a < s.params.bufBytes by omega) (hbytes 0 b rfl))
    have htail : ∀ i c, bs[i]? = some c → s.dst.read? (a + 1 + i) = some c := fun i c hc => by
      rw [show a + 1 + i = a + (i + 1) by omega]
      exact hbytes (i + 1) c hc
    rw [run_of_step hstep, ih (s := { s with reads := b.setWidth 32 :: s.reads }) hp
      (show a + 1 + bs.length ≤ s.params.bufBytes by omega) htail]
    simp

/-- Settles O40: the reads, one step each, from address 0 on. -/
theorem dumpReadsTheResult : Obligations.DumpReadsTheResult := by
  intro s bytes rest hp hfits hbytes
  rw [dumpTurns_eq_dumpTurnsFrom]
  refine run_dumpTurnsFrom hp rest (by omega) fun i b hi => ?_
  obtain ⟨hlt, rfl⟩ := List.getElem?_eq_some_iff.1 hi
  rw [Nat.zero_add]
  exact hbytes i hlt

/-! ### `COPYBACK` -/

/-- The machine about to make the access `k` of a `COPYBACK`. -/
def State.copying (s : State) (k : CopyStep) (rest : List Turn) : State :=
  { s with turns := .host (.copyback k) :: rest }

/-- A step of a `COPYBACK` that is not its last: its access, and the rest of the copy put back in front. -/
theorem step_copying {s u : State} {k k' : CopyStep} {rest : List Turn}
    (haccess : runAccess (copyAccess k) { s with turns := rest } = .next { u with turns := rest })
    (hnext : copyNext k (u.reads.headD 0) = some k') : step (s.copying k rest) = .next (u.copying k' rest) := by
  have hturn : step (s.copying k rest) = copyTurn k { s with turns := rest } := step_copyback rfl
  rw [hturn]
  simp only [copyTurn, haccess, requeueCopy, hnext, State.copying]

/-- The register reads of a `COPYBACK`: what the next step carries is the register's value. -/
theorem step_copying_readReg {s : State} (hp : s.phase ≠ .busy) {k k' : CopyStep} {off : Nat} {r : Reg}
    (hk : copyAccess k = .readReg off) (hr : regAt off = some r) (hnext : copyNext k (s.regValue r) = some k')
    (rest : List Turn) : step (s.copying k rest) = .next ((s.pushRead (s.regValue r)).copying k' rest) := by
  refine step_copying (u := s.pushRead (s.regValue r)) ?_ hnext
  rw [hk, runAccess_readReg (s := { s with turns := rest }) hp hr]
  cases r <;> rfl

/-- What the copy of `n` bytes from address `a` on leaves in SRC: the defined bytes of DST there, the old bytes elsewhere. -/
structure CopiedFrom (dst old new : Memory) (a n : Nat) : Prop where
  copied : ∀ c b, a ≤ c → c < a + n → dst.read? c = some b → new.read? c = some b
  kept : ∀ c, c < a ∨ a + n ≤ c → new.read? c = old.read? c

theorem CopiedFrom.zero (dst old : Memory) (a : Nat) : CopiedFrom dst old old a 0 :=
  ⟨fun _ _ _ _ => by omega, fun _ _ => rfl⟩

/-- The byte at `a` first, then the bytes after it. -/
theorem CopiedFrom.cons {dst old new : Memory} {a n : Nat} {v : Byte} (hv : ∀ b, dst.read? a = some b → v = b)
    (h : CopiedFrom dst (old.write a v) new (a + 1) n) : CopiedFrom dst old new a (n + 1) := by
  refine ⟨fun c b hle hlt hb => ?_, fun c hc => ?_⟩
  · rcases Nat.eq_or_lt_of_le hle with rfl | hlt'
    · rw [h.kept a (.inl (Nat.lt_succ_self a)), Memory.read?_write, if_pos rfl, hv b hb]
    · exact h.copied c b hlt' (by omega) hb
  · rw [h.kept c (by omega), Memory.read?_write, if_neg (by omega)]

/-- The copying loop: a load and a store for each byte left. -/
theorem reaches_setWidth {s : State} (hp : s.phase ≠ .busy) (w h : Word) (rest : List Turn) {a left : Nat}
    (hfits : a + left ≤ s.params.bufBytes) :
    ∃ src reads draws, CopiedFrom s.dst s.src src a left ∧
      Reaches (s.copying (copyFrom w h a left) rest)
        ({ s with src := src, reads := reads, draws := draws }.copying (.setWidth w h) rest) := by
  induction left generalizing a s with
  | zero => exact ⟨s.src, s.reads, s.draws, .zero _ _ _, .refl _⟩
  | succ left ih =>
    have ha : a < s.params.bufBytes := by omega
    obtain ⟨v, n, hload, hv⟩ := exists_runAccess_load_dst (s := { s with turns := rest }) hp ha
    have hstore := runAccess_store_src (s := { s with turns := rest, reads := v :: s.reads, draws := n }) hp ha
      (v.setWidth 8)
    obtain ⟨src, reads, draws, hcopied, hreach⟩ :=
      ih (s := { s with src := s.src.write a (v.setWidth 8), reads := v :: s.reads, draws := n }) hp
        (show a + 1 + left ≤ s.params.bufBytes by omega)
    refine ⟨src, reads, draws, hcopied.cons hv, ?_⟩
    exact .of_step (step_copying (u := { s with reads := v :: s.reads, draws := n }) hload rfl)
      (.of_step (step_copying (s := { s with reads := v :: s.reads, draws := n })
        (u := { s with src := s.src.write a (v.setWidth 8), reads := v :: s.reads, draws := n }) hstore rfl) hreach)

/-- The last two accesses of a `COPYBACK`. -/
theorem reaches_end_of_copy {s : State} (hp : s.phase ≠ .busy) (w h : Word) (rest : List Turn) :
    Reaches (s.copying (.setWidth w h) rest) { s with turns := rest, width := w, height := h } := by
  have hwidth : step (s.copying (.setWidth w h) rest) = .next ({ s with width := w }.copying (.setHeight h) rest) :=
    step_copying (u := { s with width := w }) (runAccess_setWidth (s := { s with turns := rest }) hp w) rfl
  have hheight : step ({ s with width := w }.copying (.setHeight h) rest) =
      .next { s with turns := rest, width := w, height := h } := by
    have hturn : step ({ s with width := w }.copying (.setHeight h) rest) =
        copyTurn (.setHeight h) { s with turns := rest, width := w } := step_copyback rfl
    rw [hturn, copyTurn, copyAccess, runAccess_setHeight (s := { s with turns := rest, width := w }) hp]
    rfl
  exact .of_step hwidth (.of_step hheight (.refl _))

/-- The first three accesses of a `COPYBACK`: it learns the size and the dimensions of the result. -/
theorem reaches_copyFrom {s : State} (hp : s.phase ≠ .busy) (rest : List Turn) :
    Reaches (s.copying .size rest)
      ({ s with reads := s.outHeight :: s.outWidth :: s.outSize :: s.reads }.copying
        (copyFrom s.outWidth s.outHeight 0 s.outSize.toNat) rest) :=
  .of_step (step_copying_readReg hp rfl (r := .outSize) rfl rfl rest)
    (.of_step (step_copying_readReg (s := s.pushRead s.outSize) hp rfl (r := .outWidth) rfl rfl rest)
      (.of_step (step_copying_readReg (s := (s.pushRead s.outSize).pushRead s.outWidth) hp rfl (r := .outHeight) rfl rfl
        rest) (.refl _)))

/-- Settles O41: three reads, the copying loop over the result's bytes, which all lie in range, and two writes. -/
theorem copybackMovesTheResult : Obligations.CopybackMovesTheResult := by
  intro s rest hinv hdone
  have hp : s.phase ≠ .busy := by rw [hdone]; nofun
  obtain ⟨src, reads, draws, hcopied, hloop⟩ :=
    reaches_setWidth (s := { s with reads := s.outHeight :: s.outWidth :: s.outSize :: s.reads }) hp s.outWidth
      s.outHeight rest (a := 0) (left := s.outSize.toNat) ((Nat.zero_add _).trans_le hinv.result.fits)
  have hend := reaches_end_of_copy (s := { s with src := src, reads := reads, draws := draws }) hp s.outWidth s.outHeight
    rest
  obtain ⟨k, hk⟩ := (reaches_copyFrom hp rest).trans (hloop.trans hend)
  refine ⟨k, _, hk, rfl, fun a b ha => ?_, fun a ha => ?_⟩
  · exact hcopied.copied a b (Nat.zero_le a) (by omega)
  · exact hcopied.kept a (.inr (by omega))

end Sys2Proof.Machine
end

section
/-!
Geometry (R110 to R117): bounds on strides and addresses, and the interior as a rectangle.
-/

namespace Sys2Proof.Machine

theorem rowSize_le_of_multiple {w n : Nat} (hn : n % 4 = 0) (h : 3 * w ≤ n) : rowSize w ≤ n := by
  rw [rowSize]
  omega

theorem rowSize_le (w : Nat) : rowSize w ≤ 3 * w + 3 := Nat.div_mul_le_self ..

theorem stride_false_eq_stride_true {w : Nat} (h : w % 4 = 0) : stride w false = stride w true := by
  have hrow : stride w false = 3 * w + w % 4 := rowSize_eq w
  rw [hrow, h]
  rfl

/-- Settles O7, clause by clause from the facts about `rowSize`; the least-multiple clause is arithmetic on the quotient. -/
theorem rowSizeIsTheLeastMultipleOfFour : Obligations.RowSizeIsTheLeastMultipleOfFour := fun w =>
  ⟨rfl, rowSize_eq w, Nat.mul_mod_left .., le_stride w false, rowSize_le w, fun _ => rowSize_le_of_multiple, rfl, rfl,
    stride_false_eq_stride_true⟩

/-- The last pixel byte of the last row bounds the address of every pixel byte (R113). -/
theorem addr_le_last {w h x y c : Nat} (S : Nat) (hx : x < w) (hy : y < h) (hc : c < 3) :
    addr S x y c ≤ (h - 1) * S + 3 * w - 1 := by
  have hrows : y * S ≤ (h - 1) * S := Nat.mul_le_mul_right S (by omega)
  rw [addr]
  omega

/-- The bound of R113 is itself the address of a pixel byte. -/
theorem last_eq_addr {w h : Nat} (S : Nat) (hw : 0 < w) :
    (h - 1) * S + 3 * w - 1 = addr S (w - 1) (h - 1) 2 := by
  rw [addr]
  omega

theorem addr_packed (w x y c : Nat) : addr (stride w true) x y c = 3 * (y * w + x) + c := by
  have hstride : stride w true = 3 * w := rfl
  rw [addr, hstride]
  ring

/-- Settles O8: the bound is the last pixel byte's own address, which lies inside, and addresses are injective. -/
theorem pixelAddressesStayInsideAndApart : Obligations.PixelAddressesStayInsideAndApart := by
  refine ⟨fun _ _ _ _ => rfl, fun w h x y c S hS hx hy hc => ⟨addr_le_last S hx hy (by omega), ?_⟩, addr_packed,
    fun w S x y c x' y' c' hS hx hx' hc hc' => addr_inj hS hx (by omega) hx' (by omega)⟩
  rw [last_eq_addr S (by omega)]
  exact addr_lt hS (by omega) (by omega) (by omega)

/-- R117: the interior as a product of two intervals. -/
theorem filter_interiorPixel (W H : Nat) :
    (Finset.range W ×ˢ Finset.range H).filter (fun p => interiorPixel p.1 p.2 W H) =
      Finset.Ico 2 (W - 2) ×ˢ Finset.Ico 2 (H - 2) := by
  ext ⟨x, y⟩
  simp only [Finset.mem_filter, Finset.mem_product, Finset.mem_range, Finset.mem_Ico]
  omega

theorem card_interior (W H : Nat) :
    ((Finset.range W ×ˢ Finset.range H).filter fun p => interiorPixel p.1 p.2 W H).card = (W - 4) * (H - 4) := by
  rw [filter_interiorPixel, Finset.card_product, Nat.card_Ico, Nat.card_Ico, Nat.sub_sub, Nat.sub_sub]

theorem card_border (W H : Nat) :
    ((Finset.range W ×ˢ Finset.range H).filter fun p => ¬ interiorPixel p.1 p.2 W H).card =
      W * H - (W - 4) * (H - 4) := by
  have htotal := Finset.card_filter_add_card_filter_not (s := Finset.range W ×ˢ Finset.range H)
    (fun p => interiorPixel p.1 p.2 W H)
  rw [card_interior, Finset.card_product, Finset.card_range, Finset.card_range] at htotal
  omega

/-- Settles O9: the predicate is linear arithmetic, and the interior is counted as a product of intervals. -/
theorem interiorIsARectangle : Obligations.InteriorIsARectangle := by
  intro W H
  refine ⟨fun x y => ?_, fun hsmall x y => ?_, card_interior W H, card_border W H⟩
  · rw [interiorPixel]
    omega
  · rw [interiorPixel]
    omega

end Sys2Proof.Machine
end

section
/-!
Issue (R118, R119): the three checks in their order, the size check without wrap, and what a command leaves alone.
-/

namespace Sys2Proof.Machine

/-- A command word needs a size: it is never `SRST`. -/
theorem exists_required_of_commandOf {v : Word} {i : Instr} (h : commandOf v = some i) : ∃ f, requiredOf i = some f := by
  cases i with
  | rot90 pack => exact ⟨_, rfl⟩
  | blur5 border pack => exact ⟨_, rfl⟩
  | srst ignored => exact absurd (commandOf_eq_some.1 h) (decodeCmd_ne_srst v ignored)

theorem commandError_geometry {s : State} {f : Nat → Nat → Nat} (h : s.imgWidth ≤ 0 ∨ s.imgHeight ≤ 0) :
    s.commandError (some f) = some .geometry := if_pos h

theorem commandError_size {s : State} {f : Nat → Nat → Nat} (hw : 0 < s.imgWidth) (hh : 0 < s.imgHeight)
    (h : s.params.bufBytes < f s.imgWidth.toNat s.imgHeight.toNat) : s.commandError (some f) = some .size := by
  rw [State.commandError, if_neg (by omega), if_pos h]

theorem commandError_fits {s : State} {f : Nat → Nat → Nat} (hw : 0 < s.imgWidth) (hh : 0 < s.imgHeight)
    (h : f s.imgWidth.toNat s.imgHeight.toNat ≤ s.params.bufBytes) : s.commandError (some f) = none :=
  commandError_eq_none_iff.2 ⟨f, rfl, hw, hh, h⟩

section
variable {s : State} (hp : s.phase = .idle ∨ s.phase = .done) (rest : List Turn) {v : Word}
include hp

theorem step_cmd_write_refused {e : ErrorKind} (he : s.commandError ((commandOf v).bind requiredOf) = some e) :
    step { s with turns := .host (.access (.writeReg 0x08 v)) :: rest } =
      .next { s with turns := rest, cmd := v, phase := .err, errcode := e.code } := by
  rw [step_cmd_write, issue_idle_or_done (s := { s with turns := rest }) hp,
    issueNow_refused (s := { s with turns := rest }) he]

theorem step_cmd_write_accepted (he : s.commandError ((commandOf v).bind requiredOf) = none) :
    step { s with turns := .host (.access (.writeReg 0x08 v)) :: rest } =
      .next { s with turns := rest, cmd := v, phase := .busy } := by
  rw [step_cmd_write, issue_idle_or_done (s := { s with turns := rest }) hp,
    issueNow_accepted (s := { s with turns := rest }) he]

/-- R119: with a legal word and positive dimensions the needed size alone decides. -/
theorem step_cmd_write_by_size {i : Instr} {f : Nat → Nat → Nat} (hi : commandOf v = some i) (hf : requiredOf i = some f)
    (hw : 0 < s.imgWidth) (hh : 0 < s.imgHeight) :
    (s.params.bufBytes < f s.imgWidth.toNat s.imgHeight.toNat →
      step { s with turns := .host (.access (.writeReg 0x08 v)) :: rest } =
        .next { s with turns := rest, cmd := v, phase := .err, errcode := 3 }) ∧
    (f s.imgWidth.toNat s.imgHeight.toNat ≤ s.params.bufBytes →
      step { s with turns := .host (.access (.writeReg 0x08 v)) :: rest } =
        .next { s with turns := rest, cmd := v, phase := .busy }) := by
  have hneed : (commandOf v).bind requiredOf = some f := Option.bind_eq_some_iff.2 ⟨i, hi, hf⟩
  exact ⟨fun h => step_cmd_write_refused hp rest (hneed ▸ commandError_size hw hh h),
    fun h => step_cmd_write_accepted hp rest (hneed ▸ commandError_fits hw hh h)⟩

end

/-- Settles O11: each clause is the outcome of one check, the later ones on a word or dimensions the earlier ones pass. -/
theorem issueChecksInTheirOrder : Obligations.IssueChecksInTheirOrder := by
  intro s rest v hp
  refine ⟨step_illegal_write hp rest, fun hv hdims => ?_, fun hw hh =>
    ⟨fun pack hv => step_cmd_write_by_size hp rest hv rfl hw hh,
      fun border pack hv => step_cmd_write_by_size hp rest hv rfl hw hh⟩⟩
  obtain ⟨i, hi⟩ := Option.isSome_iff_exists.1 hv
  obtain ⟨f, hf⟩ := exists_required_of_commandOf hi
  have hneed : (commandOf v).bind requiredOf = some f := Option.bind_eq_some_iff.2 ⟨i, hi, hf⟩
  exact step_cmd_write_refused hp rest (hneed ▸ commandError_geometry hdims)

/-! ### No value wraps -/

theorem stride_le (w : Nat) (pack : Bool) : stride w pack ≤ 3 * w + 3 := by
  cases pack with
  | false => exact rowSize_le w
  | true => exact Nat.le_add_right (3 * w) 3

theorem stride_lt {w : Nat} (hw : w < 2 ^ 31) (pack : Bool) : stride w pack < 2 ^ 33 := by
  have := stride_le w pack
  omega

theorem bufSize_lt {w h : Nat} (hw : w < 2 ^ 31) (hh : h < 2 ^ 31) (pack : Bool) : bufSize w h pack < 2 ^ 64 :=
  (Nat.mul_lt_mul'' (stride_lt hw pack) hh).trans_eq (pow_add 2 33 31).symm

theorem bufBytes_lt_of_wf {p : Params} (h : p.wf = true) : p.bufBytes < 2 ^ 32 := by
  simp only [Params.wf, Bool.and_eq_true, decide_eq_true_eq] at h
  exact h.2

theorem exec_refused {i : Instr} {s : State} (hp : s.phase = .idle ∨ s.phase = .done) {f : Nat → Nat → Nat}
    (hf : requiredOf i = some f) {e : ErrorKind} (he : s.commandError (some f) = some e) :
    exec i s = .next { s with cmd := encode i, phase := .err, errcode := e.code } := by
  rw [exec_command hf, issue_idle_or_done hp, hf, issueNow_refused he]

/-- Settles O13: the operands are below `2^31` and `BUF_BYTES` below `2^32`, and the check compares exact numbers. -/
theorem sizeCheckNeverWraps : Obligations.SizeCheckNeverWraps := by
  intro s pack hparams hw hh W H
  have hbuf := bufBytes_lt_of_wf hparams
  have hW : W < 2 ^ 31 := (Int.toNat_lt hw.le).2 BitVec.toInt_lt
  have hH : H < 2 ^ 31 := (Int.toNat_lt hh.le).2 BitVec.toInt_lt
  have hstride : stride W pack ≤ bufSize W H pack := stride_le_bufSize pack (Int.lt_toNat.2 hh)
  refine ⟨stride_lt hW pack, bufSize_lt hW hH pack, fun hfits => ⟨by omega, by omega⟩, fun hlarge hp border => ?_⟩
  exact exec_refused hp rfl (commandError_size hw hh (hbuf.trans_le hlarge))

/-! ### What a command leaves alone -/

/-- R127: whatever the phase and the checks say, an issue keeps the operands and both memories. -/
theorem issue_frame (word : Word) (need : Option (Nat → Nat → Nat)) (s : State) :
    (issue word need s).src = s.src ∧ (issue word need s).width = s.width ∧ (issue word need s).height = s.height ∧
      (issue word need s).dst = s.dst := by
  rcases issue_cases word need s with ⟨-, h⟩ | ⟨-, h⟩ | ⟨-, h⟩
  · rcases issueNow_cases word need s with ⟨e, -, hnow⟩ | ⟨-, hnow⟩ <;> rw [h, hnow] <;> exact ⟨rfl, rfl, rfl, rfl⟩
  · rw [h]
    exact ⟨rfl, rfl, rfl, rfl⟩
  · rw [h]
    exact ⟨rfl, rfl, rfl, rfl⟩

/-- Settles O29: a command's `exec` is an issue, and a completion writes DST and the result registers only. -/
theorem commandsLeaveTheSourceAlone : Obligations.CommandsLeaveTheSourceAlone := by
  refine ⟨fun i s t hi h => ?_, fun s t h => ?_⟩
  · obtain ⟨f, hf⟩ := Option.isSome_iff_exists.1 hi
    exact Host.Outcome.next.inj ((exec_command hf s).symm.trans h) ▸ issue_frame (encode i) (requiredOf i) s
  · by_cases hbusy : s.phase = .busy
    · rw [engineTurn_busy hbusy] at h
      obtain ⟨-, ow, oh, pack, body, -, rfl⟩ := complete_eq_finish h
      exact ⟨rfl, rfl, rfl⟩
    · rw [engineTurn_not_busy hbusy] at h
      cases h
      exact ⟨rfl, rfl, rfl⟩

end Sys2Proof.Machine
end

section
/-!
Completion (R121, R122): both commands end as `finish` with a body of stores, which go to pixel bytes of the result and carry
what the read footprint holds.
-/

namespace Sys2Proof.Machine

/-- The flag `PACK` of a command word (R91). -/
def packOf : Instr → Bool
  | .rot90 pack => pack
  | .blur5 _ pack => pack
  | .srst _ => false

/-- The stores of a command's body on a `W` by `H` image (R142, R162). -/
def bodyStores (k : Kernel) (W H : Nat) (src : Memory) : Instr → List (Nat × Option Byte)
  | .rot90 pack => rot90Writes pack W H src
  | .blur5 border pack => blur5Writes k border pack W H src
  | .srst _ => []

theorem completeInstr_eq_finish {i : Instr} (h : (requiredOf i).isSome) (s : State) :
    completeInstr i s =
      finish (outDims i s.imgWidth.toNat s.imgHeight.toNat).1 (outDims i s.imgWidth.toNat s.imgHeight.toNat).2 (packOf i)
        (bodyStores s.params.kernel s.imgWidth.toNat s.imgHeight.toNat s.src i) s := by
  cases i with
  | rot90 pack => rfl
  | blur5 border pack => rfl
  | srst ignored => cases h

/-- The engine's turn on a command in flight, whichever it is. -/
theorem engineTurn_eq_finish {s : State} {i : Instr} (hbusy : s.phase = .busy) (hi : commandOf s.cmd = some i)
    (he : s.commandError (requiredOf i) = none) :
    engineTurn s = .next
      (finish (outDims i s.imgWidth.toNat s.imgHeight.toNat).1 (outDims i s.imgWidth.toNat s.imgHeight.toNat).2 (packOf i)
        (bodyStores s.params.kernel s.imgWidth.toNat s.imgHeight.toNat s.src i) s) := by
  obtain ⟨f, hf, -⟩ := commandError_eq_none_iff.1 he
  rw [engineTurn_of_accepted hbusy hi he, completeInstr_eq_finish (by rw [hf]; rfl)]

/-! ### Padding and tail -/

/-- `a` is the address of a pixel byte of a `w` by `h` image of stride `S` (R113). -/
def PixelByte (w h S a : Nat) : Prop := ∃ x y c, x < w ∧ y < h ∧ c < 3 ∧ a = addr S x y c

theorem PixelByte.lt {w h a : Nat} {pack : Bool} (ha : PixelByte w h (stride w pack) a) : a < bufSize w h pack := by
  obtain ⟨x, y, c, hx, hy, hc, rfl⟩ := ha
  exact addr_lt (le_stride w pack) hx hy hc

/-- Both bodies store to pixel bytes of the result only (R147, R162). -/
theorem pixelByte_of_mem_bodyStores {k : Kernel} {W H : Nat} {src : Memory} {i : Instr} {w : Nat × Option Byte}
    (h : w ∈ bodyStores k W H src i) :
    PixelByte (outDims i W H).1 (outDims i W H).2 (stride (outDims i W H).1 (packOf i)) w.1 := by
  cases i with
  | rot90 pack =>
    obtain ⟨x, y, c, hx, hy, hc, rfl⟩ := mem_rot90Writes.1 h
    exact ⟨y, W - 1 - x, c, hy, show W - 1 - x < W by omega, hc, rfl⟩
  | blur5 border pack =>
    obtain ⟨x, y, c, hx, hy, hc, hpix⟩ := mem_blur5Writes.1 h
    exact ⟨x, y, c, hx, hy, hc, blur5PixelWrites_addr hpix⟩
  | srst ignored => cases h

section
variable {ow oh : Nat} {pack : Bool} {body : List (Nat × Option Byte)}
  (hbody : ∀ w ∈ body, PixelByte ow oh (stride ow pack) w.1) (s : State) {a : Nat}
include hbody

/-- R122: the clearing reaches every byte the body does not store to. -/
theorem finish_padding (ha : a < bufSize ow oh pack) (hpad : ¬ PixelByte ow oh (stride ow pack) a) :
    (finish ow oh pack body s).dst.read? a = some 0 := by
  have hother : ∀ w ∈ body, w.1 ≠ a := fun w hw he => hpad (he ▸ hbody w hw)
  rw [State.finish_dst, Memory.read?_writeAll_other hother, Memory.read?_writeAll_zeroWrites, if_pos ha]

theorem finish_tail (ha : bufSize ow oh pack ≤ a) : (finish ow oh pack body s).dst.read? a = s.dst.read? a := by
  have hother : ∀ w ∈ body, w.1 ≠ a := fun w hw => ((hbody w hw).lt.trans_le ha).ne
  rw [State.finish_dst, Memory.read?_writeAll_other hother, Memory.read?_writeAll_zeroWrites, if_neg ha.not_gt]

end

/-- Settles O26: the body stores to pixel bytes only, so padding keeps the clearing's 0 and the tail keeps its byte. -/
theorem resultPaddingIsZeroAndTheTailIsKept : Obligations.ResultPaddingIsZeroAndTheTailIsKept := by
  intro s i hbusy hi he
  refine ⟨_, engineTurn_eq_finish hbusy hi he, fun pack hcommand => ?_⟩
  obtain rfl : packOf i = pack := by rcases hcommand with rfl | rfl | rfl <;> rfl
  refine ⟨fun a ha hpad => ?_, fun a ha => ?_⟩
  · refine finish_padding (fun w => pixelByte_of_mem_bodyStores) s ha ?_
    rintro ⟨x, y, c, hx, hy, hc, h⟩
    exact hpad x y c hx hy hc h
  · exact finish_tail (fun w => pixelByte_of_mem_bodyStores) s ha

/-! ### The read footprint -/

theorem windowSum_congr {k : Kernel} {S x y c : Nat} {src src' : Memory}
    (h : ∀ j i : Fin 5, src'.read? (addr S (x + i.val - 2) (y + j.val - 2) c) =
      src.read? (addr S (x + i.val - 2) (y + j.val - 2) c)) :
    windowSum k src' S x y c = windowSum k src S x y c :=
  List.foldl_ext _ _ _ fun acc t _ => by simp only [addTap, h]

theorem rot90Writes_congr {pack : Bool} {W H : Nat} {src src' : Memory}
    (h : ∀ a, footprint (.rot90 pack) W H a → src'.read? a = src.read? a) :
    rot90Writes pack W H src' = rot90Writes pack W H src := by
  refine List.flatMap_congr fun y hy => List.flatMap_congr fun x hx => List.map_congr_left fun c hc => ?_
  rw [List.mem_range] at hx hy hc
  exact congrArg _ (h _ ⟨pack, x, y, c, hx, hy, hc, rfl, .inl rfl⟩)

theorem blur5PixelWrites_congr {k : Kernel} {border pack : Bool} {W H x y c : Nat} {src src' : Memory}
    (hx : x < W) (hy : y < H) (hc : c < 3)
    (h : ∀ a, footprint (.blur5 border pack) W H a → src'.read? a = src.read? a) :
    blur5PixelWrites k border (stride W pack) W H src' x y c =
      blur5PixelWrites k border (stride W pack) W H src x y c := by
  simp only [blur5PixelWrites]
  split
  · rename_i hin
    obtain ⟨hx2, hxW, hy2, hyH⟩ := hin
    have hcommand : Instr.blur5 border pack = .blur5 true pack ∨
        Instr.blur5 border pack = .blur5 false pack ∧ 5 ≤ W ∧ 5 ≤ H := by
      cases border with
      | true => exact .inl rfl
      | false => exact .inr ⟨rfl, by omega, by omega⟩
    rw [windowSum_congr fun j i => h _ ⟨pack, _, _, c, by omega, by omega, hc, rfl, .inr hcommand⟩]
  · split
    · rename_i hborder
      subst hborder
      rw [h _ ⟨pack, x, y, c, hx, hy, hc, rfl, .inr (.inl rfl)⟩]
    · rfl

theorem blur5Writes_congr {k : Kernel} {border pack : Bool} {W H : Nat} {src src' : Memory}
    (h : ∀ a, footprint (.blur5 border pack) W H a → src'.read? a = src.read? a) :
    blur5Writes k border pack W H src' = blur5Writes k border pack W H src := by
  refine List.flatMap_congr fun y hy => List.flatMap_congr fun x hx => List.flatMap_congr fun c hc => ?_
  rw [List.mem_range] at hx hy hc
  exact blur5PixelWrites_congr hx hy hc h

/-- R75: two sources that agree on the read footprint give the same stores. -/
theorem bodyStores_congr {k : Kernel} {W H : Nat} {src src' : Memory} {i : Instr}
    (h : ∀ a, footprint i W H a → src'.read? a = src.read? a) : bodyStores k W H src' i = bodyStores k W H src i := by
  cases i with
  | rot90 pack => exact rot90Writes_congr h
  | blur5 border pack => exact blur5Writes_congr h
  | srst ignored => rfl

/-- The same stores on two memories that agree at an address leave them agreeing there. -/
theorem Memory.read?_writeAll_congr {m m' : Memory} {b : Nat} (ws : List (Nat × Option Byte))
    (h : m'.read? b = m.read? b) : (m'.writeAll ws).read? b = (m.writeAll ws).read? b := by
  induction ws generalizing m m' with
  | nil => exact h
  | cons w ws ih => exact ih (by rw [Memory.read?_put, Memory.read?_put, h])

/-- R122: below `OUT_SIZE` nothing of the old DST is left. -/
theorem finish_dst_congr {ow oh : Nat} {pack : Bool} (body : List (Nat × Option Byte)) (s s' : State) {a : Nat}
    (ha : a < bufSize ow oh pack) :
    (finish ow oh pack body s').dst.read? a = (finish ow oh pack body s).dst.read? a := by
  refine Memory.read?_writeAll_congr body ?_
  rw [Memory.read?_writeAll_zeroWrites, Memory.read?_writeAll_zeroWrites, if_pos ha, if_pos ha]

/-- Settles O27: both machines make the same stores on a result buffer they have cleared. -/
theorem resultDependsOnTheFootprintOnly : Obligations.ResultDependsOnTheFootprintOnly := by
  intro s s' i _ hbusy hbusy' hi he hcmd hwidth hheight hparams hsrc
  have he' : s'.commandError (requiredOf i) = none :=
    (commandError_congr _ hwidth hheight (by rw [hparams])).trans he
  have hturn' := engineTurn_eq_finish hbusy' (hcmd ▸ hi) he'
  rw [State.imgWidth, State.imgHeight, hwidth, hheight, hparams, bodyStores_congr hsrc] at hturn'
  refine ⟨_, _, engineTurn_eq_finish hbusy hi he, hturn', rfl, rfl, rfl, rfl, fun a ha => ?_⟩
  rw [State.finish_outSize, BitVec.toNat_ofNat] at ha
  exact finish_dst_congr _ s s' (ha.trans_le (Nat.mod_le ..))

end Sys2Proof.Machine
end

section
/-!
The life of a command in flight (R120, R121, R124): from a legal state a step fails only at a register that does not exist,
and a step from `BUSY` that is no reset completes the command or takes one access off the list of turns.
-/

namespace Sys2Proof.Machine

/-! ### Steps that exist -/

theorem engineTurn_total {s : State} (h : s.Inv) : ∃ t, engineTurn s = .next t := by
  by_cases hbusy : s.phase = .busy
  · obtain ⟨i, hi, he⟩ := h.busy hbusy
    exact ⟨_, engineTurn_of_accepted hbusy hi he⟩
  · exact ⟨s, engineTurn_not_busy hbusy⟩

/-- U10: a `POLL` in `BUSY` waits for the completion and polls again. -/
theorem pollTurn_busy {s : State} (hbusy : s.phase = .busy) :
    pollTurn s = complete { s with turns := .host .poll :: s.turns } := by
  rw [pollTurn, if_pos hbusy]
  exact engineTurn_busy hbusy

theorem pollTurn_total {s : State} (h : s.Inv) : ∃ t, pollTurn s = .next t := by
  by_cases hbusy : s.phase = .busy
  · rw [pollTurn, if_pos hbusy]
    exact engineTurn_total (h.with_turns _)
  · exact ⟨_, if_neg hbusy⟩

theorem copyTurn_total (k : CopyStep) (s : State) : ∃ t, copyTurn k s = .next t := by
  obtain ⟨u, hu⟩ := runAccess_total (copyAccess_wf k).1 s
  exact ⟨requeueCopy k u, by simp only [copyTurn, hu]⟩

theorem step_total {s : State} (h : s.Inv) (hwf : ∀ turn ∈ s.turns.head?, turn.wf = true) : ∃ t, step s = .next t := by
  have hafter : s.afterTurn.Inv := h.with_turns s.turns.tail
  cases hts : s.turns with
  | nil =>
    rw [step_nil hts]
    exact engineTurn_total h
  | cons turn rest =>
    cases turn with
    | engine =>
      rw [step_engine hts]
      exact engineTurn_total hafter
    | reset => exact ⟨_, step_reset hts⟩
    | host op =>
      cases op with
      | access a =>
        have ha : a.wf = true := hwf (.host (.access a)) (by rw [hts]; rfl)
        rw [step_access hts]
        exact runAccess_total ha _
      | poll =>
        rw [step_poll hts]
        exact pollTurn_total hafter
      | copyback k =>
        rw [step_copyback hts]
        exact copyTurn_total k _

/-- R68: the only ill-formed turns are register accesses at an offset without a register. -/
theorem Turn.of_not_wf {turn : Turn} (h : turn.wf ≠ true) :
    ∃ off, (off % 4 ≠ 0 ∨ 0x40 ≤ off) ∧
      ((∃ v, turn = .host (.access (.writeReg off v))) ∨ turn = .host (.access (.readReg off))) := by
  match turn, h with
  | .host (.access (.readReg off)), h =>
    exact ⟨off, by have := mt (Access.readReg_wf_iff off).2 h; omega, .inr rfl⟩
  | .host (.access (.writeReg off v)), h =>
    exact ⟨off, by have := mt (Access.writeReg_wf_iff off v).2 h; omega, .inl ⟨v, rfl⟩⟩

theorem step_refused_of_not_wf {s : State} {turn : Turn} (hturn : s.turns.head? = some turn) (h : turn.wf ≠ true) :
    ∃ off, step s = .refused (.noSuchRegister off) ∧ (off % 4 ≠ 0 ∨ 0x40 ≤ off) ∧
      ((∃ v, s.turns.head? = some (.host (.access (.writeReg off v)))) ∨
        s.turns.head? = some (.host (.access (.readReg off)))) := by
  obtain ⟨rest, hts⟩ := List.head?_eq_some_iff.1 hturn
  obtain ⟨off, hoff, ⟨v, rfl⟩ | rfl⟩ := Turn.of_not_wf h
  · refine ⟨off, (step_access hts).trans ?_, hoff, .inl ⟨v, hturn⟩⟩
    exact runAccess_writeReg_refused ((regAt_eq_none_iff off).2 hoff) v _
  · refine ⟨off, (step_access hts).trans ?_, hoff, .inr hturn⟩
    exact runAccess_readReg_refused ((regAt_eq_none_iff off).2 hoff) _

/-- Settles O51: a well-formed turn has a step from a legal state, and an ill-formed one is refused by name. -/
theorem legalStatesNeverFault : Obligations.LegalStatesNeverFault := by
  intro s hs
  by_cases hwf : ∀ turn ∈ s.turns.head?, turn.wf = true
  · obtain ⟨t, ht⟩ := step_total hs hwf
    rw [ht]
    exact ⟨nofun, nofun⟩
  · push Not at hwf
    obtain ⟨turn, hturn, hbad⟩ := hwf
    obtain ⟨off, hstep, hoff, hhead⟩ := step_refused_of_not_wf hturn hbad
    rw [hstep]
    refine ⟨nofun, fun r hr => ?_⟩
    cases hr
    exact ⟨off, rfl, hoff, hhead⟩

/-! ### A step from `BUSY` -/

/-- R247: in `BUSY` the effect of a host access is on the host's record and `HZD` only, unless it is the soft reset. -/
theorem AccessEffect.of_busy {s t : State} {a : Access} (h : AccessEffect s a t) (hbusy : s.phase = .busy) :
    (∃ rs n z, t = { s with reads := rs, draws := n, hzd := z }) ∨
    (∃ v, a = .writeReg 0x10 v ∧ v.getLsbD 0 = true) := by
  cases h with
  | quiet _ rs n => exact .inl ⟨rs, n, s.hzd, rfl⟩
  | hazard _ rs n _ _ => exact .inl ⟨rs, n, true, rfl⟩
  | softReset v hv => exact .inr ⟨v, rfl, hv⟩
  | refuse _ _ hp _ => rcases hp with hp | hp <;> cases hbusy.symm.trans hp
  | accept _ _ hp _ _ => rcases hp with hp | hp <;> cases hbusy.symm.trans hp
  | setWidth _ _ _ hne => exact absurd hbusy hne
  | setHeight _ _ _ hne => exact absurd hbusy hne
  | store _ _ _ hne _ => exact absurd hbusy hne

theorem runAccess_busy {s u : State} {turn : Turn} {a : Access} (ha : turn.access? = some a)
    (hreset : turn.resets = false) (hbusy : s.phase = .busy) (h : runAccess a s = .next u) :
    ∃ rs n z, u = { s with reads := rs, draws := n, hzd := z } := by
  rcases (runAccess_effect h).of_busy hbusy with hu | ⟨v, rfl, hv⟩
  · exact hu
  · exact absurd (Turn.resets_of_ctrl_write ha hv) (hreset ▸ nofun)

/-- How one host access changes the list of turns: its turn is taken off, or replaced by the rest of its `COPYBACK`. -/
inductive TurnTaken : List Turn → List Turn → Prop
  | off (turn : Turn) (rest : List Turn) : TurnTaken (turn :: rest) rest
  | copying (k k' : CopyStep) (v : Word) (rest : List Turn) (h : copyNext k v = some k') :
      TurnTaken (.host (.copyback k) :: rest) (.host (.copyback k') :: rest)

theorem turnTaken_requeueCopy {k : CopyStep} {s : State} :
    TurnTaken (.host (.copyback k) :: s.turns) (requeueCopy k s).turns := by
  cases h : copyNext k (s.reads.headD 0) with
  | none =>
    simp only [requeueCopy, h]
    exact .off _ _
  | some k' =>
    simp only [requeueCopy, h]
    exact .copying k k' _ _ h

/-- Everything a step from `BUSY` that is no reset can do: complete the command, or make one host access that changes the
host's record, `HZD` and the list of turns only. -/
theorem step_busy_cases {s t : State} (h : step s = .next t) (hbusy : s.phase = .busy)
    (hreset : ∀ turn ∈ s.turns.head?, turn.resets = false) :
    (∃ ts, complete { s with turns := ts } = .next t) ∨
    (∃ ts rs n z, TurnTaken s.turns ts ∧ t = { s with turns := ts, reads := rs, draws := n, hzd := z }) := by
  have hafter : s.afterTurn.phase = .busy := hbusy
  cases hts : s.turns with
  | nil =>
    rw [step_nil hts, engineTurn_busy hbusy] at h
    exact .inl ⟨s.turns, h⟩
  | cons turn rest =>
    have hturn : turn.resets = false := hreset turn (by rw [hts]; rfl)
    have htail : s.afterTurn.turns = rest := congrArg List.tail hts
    cases turn with
    | engine =>
      rw [step_engine hts, engineTurn_busy hafter] at h
      exact .inl ⟨_, h⟩
    | reset => cases hturn
    | host op =>
      cases op with
      | access a =>
        rw [step_access hts] at h
        obtain ⟨rs, n, z, rfl⟩ := runAccess_busy (turn := .host (.access a)) rfl hturn hafter h
        exact .inr ⟨_, rs, n, z, htail ▸ .off _ _, rfl⟩
      | poll =>
        rw [step_poll hts, pollTurn_busy hafter] at h
        exact .inl ⟨_, h⟩
      | copyback k =>
        rw [step_copyback hts, copyTurn] at h
        split at h
        · rename_i u hu
          obtain ⟨rs, n, z, rfl⟩ := runAccess_busy (turn := .host (.copyback k)) rfl hturn hafter hu
          have htaken := turnTaken_requeueCopy (k := k) (s := { s.afterTurn with reads := rs, draws := n, hzd := z })
          obtain ⟨ts, hq⟩ := requeueCopy_eq k { s.afterTurn with reads := rs, draws := n, hzd := z }
          rw [hq] at htaken h
          exact .inr ⟨ts, rs, n, z, htail ▸ htaken, (Host.Outcome.next.inj h).symm⟩
        · cases h
        · cases h

/-- Settles O28: neither a completion nor an access in `BUSY` changes an operand. -/
theorem operandsAreStableInBusy : Obligations.OperandsAreStableInBusy := by
  intro s t h hbusy hreset
  rcases step_busy_cases h hbusy hreset with ⟨ts, hc⟩ | ⟨ts, rs, n, z, -, rfl⟩
  · obtain ⟨-, ow, oh, pack, body, -, rfl⟩ := complete_eq_finish hc
    exact ⟨rfl, rfl, rfl, rfl⟩
  · exact ⟨rfl, rfl, rfl, rfl⟩

/-! ### How long a command can stay in flight -/

/-- A bound on the accesses left of a `COPYBACK` in this place, whatever its reads return: two for each byte, and before
`OUT_SIZE` has been read the bytes may be as many as a word counts. -/
def CopyStep.accessesLeft : CopyStep → Nat
  | .size => 2 * 2 ^ 32 + 5
  | .width n => 2 * n.toNat + 6
  | .height n _ => 2 * n.toNat + 5
  | .load _ _ _ left => 2 * left + 4
  | .store _ _ _ left _ => 2 * left + 3
  | .setWidth _ _ => 2
  | .setHeight _ => 1

theorem CopyStep.accessesLeft_copyFrom (w h : Word) (a left : Nat) :
    (copyFrom w h a left).accessesLeft = if left = 0 then 2 else 2 * left + 4 := by
  rw [copyFrom]
  split <;> rfl

theorem CopyStep.accessesLeft_lt {k k' : CopyStep} {v : Word} (h : copyNext k v = some k') :
    k'.accessesLeft < k.accessesLeft := by
  cases k with
  | size =>
    cases h
    show 2 * v.toNat + 6 < 2 * 2 ^ 32 + 5
    omega
  | width n =>
    cases h
    exact Nat.lt_succ_self _
  | height n w =>
    cases h
    rw [accessesLeft_copyFrom]
    show _ < 2 * n.toNat + 5
    split <;> omega
  | load w h' a left =>
    cases h
    exact Nat.lt_succ_self _
  | store w h' a left b =>
    cases h
    rw [accessesLeft_copyFrom]
    show _ < 2 * left + 3
    split <;> omega
  | setWidth w h' =>
    cases h
    exact Nat.lt_succ_self 1
  | setHeight h' => cases h

/-- A bound on the steps a turn takes. -/
def Turn.stepsLeft : Turn → Nat
  | .host (.copyback k) => k.accessesLeft
  | _ => 1

theorem Turn.stepsLeft_pos (turn : Turn) : 0 < turn.stepsLeft := by
  match turn with
  | .host (.copyback k) => cases k <;> exact Nat.succ_pos _
  | .host (.access _) => exact Nat.one_pos
  | .host .poll => exact Nat.one_pos
  | .engine => exact Nat.one_pos
  | .reset => exact Nat.one_pos

/-- A bound on the steps a list of turns takes. -/
def stepsLeft (ts : List Turn) : Nat := (ts.map Turn.stepsLeft).sum

theorem stepsLeft_cons (turn : Turn) (ts : List Turn) : stepsLeft (turn :: ts) = turn.stepsLeft + stepsLeft ts := rfl

theorem TurnTaken.stepsLeft_lt {ts ts' : List Turn} (h : TurnTaken ts ts') : stepsLeft ts' < stepsLeft ts := by
  cases h with
  | off turn rest => exact Nat.lt_add_of_pos_left turn.stepsLeft_pos
  | copying k k' v rest hnext => exact Nat.add_lt_add_right (CopyStep.accessesLeft_lt hnext) _

theorem TurnTaken.keeps_wf_no_reset {ts ts' : List Turn} (h : TurnTaken ts ts')
    (hts : ∀ turn ∈ ts, turn.wf = true ∧ turn.resets = false) : ∀ turn ∈ ts', turn.wf = true ∧ turn.resets = false := by
  cases h with
  | off turn rest => exact fun u hu => hts u (List.mem_cons_of_mem turn hu)
  | copying k k' v rest _ =>
    intro u hu
    rcases List.mem_cons.1 hu with rfl | hu
    · exact ⟨rfl, rfl⟩
    · exact hts u (List.mem_cons_of_mem _ hu)

/-- R124: by induction on the bound, because every step that does not complete the command lowers it. -/
theorem reaches_done {s : State} (hinv : s.Inv) (hbusy : s.phase = .busy)
    (hturns : ∀ turn ∈ s.turns, turn.wf = true ∧ turn.resets = false) :
    ∃ t, Reaches s t ∧ t.phase = .done ∧ t.cmd = s.cmd ∧ t.src = s.src := by
  induction hn : stepsLeft s.turns using Nat.strong_induction_on generalizing s with
  | _ n ih =>
    have hhead : ∀ turn ∈ s.turns.head?, turn.wf = true ∧ turn.resets = false :=
      fun turn h => hturns turn (List.mem_of_head? h)
    obtain ⟨t, hstep⟩ := step_total hinv fun turn h => (hhead turn h).1
    rcases step_busy_cases hstep hbusy fun turn h => (hhead turn h).2 with ⟨ts, hc⟩ | ⟨ts, rs, m, z, htaken, rfl⟩
    · obtain ⟨-, ow, oh, pack, body, -, rfl⟩ := complete_eq_finish hc
      exact ⟨_, .of_step hstep (.refl _), rfl, rfl, rfl⟩
    · obtain ⟨u, hreach, hdone, hcmd, hsrc⟩ := ih (stepsLeft ts) (hn ▸ htaken.stepsLeft_lt)
        (hinv.of_same_engine ts rs m z) hbusy (htaken.keeps_wf_no_reset hturns) rfl
      exact ⟨u, .of_step hstep hreach, hdone, hcmd, hsrc⟩

/-- Settles O53: the number of steps of a run to `DONE`. -/
theorem busyEndsInDone : Obligations.BusyEndsInDone := by
  intro s hinv hbusy hturns
  obtain ⟨t, ⟨k, hk⟩, hdone, hcmd, hsrc⟩ := reaches_done hinv hbusy hturns
  exact ⟨k, t, hk, hdone, hcmd, hsrc⟩

end Sys2Proof.Machine
end

section
/-!
`ROT90` (R142 to R149): the result registers, where every pixel byte goes, and what two and four rotations leave.
-/

namespace Sys2Proof.Machine

/-! ### The result registers -/

/-- A dimension comes back from its number: no operand of an accepted command is negative. -/
theorem ofNat_toNat_toInt {v : Word} (h : 0 < v.toInt) : BitVec.ofNat 32 v.toInt.toNat = v := by
  rw [← BitVec.ofInt_natCast, Int.toNat_of_nonneg h.le, BitVec.ofInt_toInt]

/-- R116: `OUT_STRIDE` and `OUT_SIZE` hold the exact numbers of a result that fits. -/
theorem ResultFits.toNat_registers {s : State} {ow oh : Nat} {pack : Bool} {body : List (Nat × Option Byte)}
    (h : ResultFits s ow oh pack body) (hparams : s.params.wf = true) :
    (finish ow oh pack body s).outStride.toNat = stride ow pack ∧
      (finish ow oh pack body s).outSize.toNat = bufSize ow oh pack := by
  have hsize : bufSize ow oh pack < 2 ^ 32 := h.size_le.trans_lt (bufBytes_lt_of_wf hparams)
  have hstride : stride ow pack < 2 ^ 32 := (stride_le_bufSize pack h.height_pos).trans_lt hsize
  exact ⟨(BitVec.toNat_ofNat ..).trans (Nat.mod_eq_of_lt hstride),
    (BitVec.toNat_ofNat ..).trans (Nat.mod_eq_of_lt hsize)⟩

/-- R144: the whole state after a completion of `ROT90` on positive dimensions, but for DST. -/
theorem completeRot90_eq {s : State} (hw : 0 < s.imgWidth) (hh : 0 < s.imgHeight) (pack : Bool) :
    completeRot90 pack s = { s with
      dst := (completeRot90 pack s).dst, phase := .done, outWidth := s.height, outHeight := s.width
      outStride := BitVec.ofNat 32 (stride s.imgHeight.toNat pack)
      outSize := BitVec.ofNat 32 (bufSize s.imgHeight.toNat s.imgWidth.toNat pack) } := by
  have hwidth : BitVec.ofNat 32 s.imgWidth.toNat = s.width := ofNat_toNat_toInt hw
  have hheight : BitVec.ofNat 32 s.imgHeight.toNat = s.height := ofNat_toNat_toInt hh
  simp only [completeRot90, finish, hwidth, hheight]

/-- Settles O15: the accepted issue, then the completion, whose exact numbers fit because the result does. -/
theorem rot90CompletesWithSwappedDimensions : Obligations.Rot90CompletesWithSwappedDimensions := by
  intro s pack hp hparams hw hh W H hfits
  have he : s.commandError (requiredOf (.rot90 pack)) = none := commandError_fits hw hh hfits
  let issued : State := { s with cmd := encode (.rot90 pack), phase := .busy }
  have he' : issued.commandError (requiredOf (.rot90 pack)) = none := (commandError_congr _ rfl rfl rfl).trans he
  exact ⟨exec_accepted hp he, _, engineTurn_after_issue he, completeRot90_eq (s := issued) hw hh pack,
    (resultFits_rot90 he').toNat_registers hparams⟩

/-! ### Where every pixel goes -/

/-- The mirror image `i -> n-1-i` of R142 is its own inverse. -/
theorem mirror_mirror {n i : Nat} (h : i < n) : n - 1 - (n - 1 - i) = i := Nat.sub_sub_self (Nat.le_sub_one_of_lt h)

/-- R142 as a statement about the completion: source pixel `(x, y)` is result pixel `(y, W-1-x)`. -/
theorem completeRot90_pixel {s : State} {pack : Bool} {x y c : Nat} (hx : x < s.imgWidth.toNat)
    (hy : y < s.imgHeight.toNat) (hc : c < 3) :
    (completeRot90 pack s).dst.pixel? (stride s.imgHeight.toNat pack) y (s.imgWidth.toNat - 1 - x) c =
      s.src.pixel? (stride s.imgWidth.toNat pack) x y c :=
  read?_rot90Writes hx hy hc s.src _

/-- Settles O16: R142's map by `completeRot90_pixel`, and R143's reading of it by mirroring the result's row. -/
theorem rot90MovesEveryPixel : Obligations.Rot90MovesEveryPixel := by
  intro s pack hp hw hh W H hfits
  have he : s.commandError (requiredOf (.rot90 pack)) = none := commandError_fits hw hh hfits
  refine ⟨_, _, exec_accepted hp he, engineTurn_after_issue he, rfl, ofNat_toNat_toInt hh, ofNat_toNat_toInt hw,
    fun x y c hx hy hc => completeRot90_pixel hx hy hc, fun x' y' c hx' hy' hc => ?_⟩
  conv_lhs => rw [← mirror_mirror hy']
  exact completeRot90_pixel (s := { s with cmd := encode (.rot90 pack), phase := .busy })
    (show W - 1 - y' < W by omega) hx' hc

/-! ### The stores -/

/-- The loop indices of `rot90_body` in their order (R142): row, column, channel. -/
def rot90Indices (W H : Nat) : List (Nat × Nat × Nat) := List.range H ×ˢ List.range W ×ˢ List.range 3

theorem mem_rot90Indices {W H x y c : Nat} : (y, x, c) ∈ rot90Indices W H ↔ y < H ∧ x < W ∧ c < 3 := by
  simp only [rot90Indices, List.mem_product, List.mem_range]

theorem rot90Indices_nodup (W H : Nat) : (rot90Indices W H).Nodup :=
  List.nodup_range.product (List.nodup_range.product List.nodup_range)

/-- The address the body stores to at the loop indices `(y, x, c)`. -/
def rot90Target (S W : Nat) (i : Nat × Nat × Nat) : Nat := addr S i.1 (W - 1 - i.2.1) i.2.2

theorem map_fst_rot90Writes (pack : Bool) (W H : Nat) (src : Memory) :
    (rot90Writes pack W H src).map Prod.fst = (rot90Indices W H).map (rot90Target (stride H pack) W) := by
  simp only [rot90Writes, rot90Indices, SProd.sprod, List.product, List.map_flatMap, List.map_map]
  rfl

theorem rot90Target_inj {pack : Bool} {W H : Nat} {i j : Nat × Nat × Nat} (hi : i ∈ rot90Indices W H)
    (hj : j ∈ rot90Indices W H) (h : rot90Target (stride H pack) W i = rot90Target (stride H pack) W j) : i = j := by
  obtain ⟨y, x, c⟩ := i
  obtain ⟨y', x', c'⟩ := j
  obtain ⟨hy, hx, hc⟩ := mem_rot90Indices.1 hi
  obtain ⟨hy', hx', hc'⟩ := mem_rot90Indices.1 hj
  obtain ⟨rfl, hrow, rfl⟩ := addr_inj (le_stride H pack) hy hc hy' hc' h
  obtain rfl : x = x' := by dsimp only at hrow; omega
  rfl

theorem mem_map_fst_rot90Writes {pack : Bool} {W H a : Nat} {src : Memory} :
    a ∈ (rot90Writes pack W H src).map Prod.fst ↔ PixelByte H W (stride H pack) a := by
  simp only [List.mem_map, mem_rot90Writes]
  constructor
  · rintro ⟨_, ⟨x, y, c, hx, hy, hc, rfl⟩, rfl⟩
    exact ⟨y, W - 1 - x, c, hy, by omega, hc, rfl⟩
  · rintro ⟨x', y', c, hx', hy', hc, rfl⟩
    exact ⟨_, ⟨W - 1 - y', x', c, by omega, hx', hc, rfl⟩, congrArg (addr _ x' · c) (mirror_mirror hy')⟩

/-- Settles O17: the loop indices are all different and the target address is injective on them. -/
theorem rot90StoresAreABijection : Obligations.Rot90StoresAreABijection := by
  intro pack W H src
  refine ⟨?_, fun a => mem_map_fst_rot90Writes⟩
  rw [map_fst_rot90Writes]
  exact (rot90Indices_nodup W H).map_on fun i hi j hj => rot90Target_inj hi hj

/-! ### Repeated rotation -/

/-- An accepted `ROT90` is in flight (R118, R120), on an engine with parameters in range. -/
structure State.RotationInFlight (s : State) (pack : Bool) : Prop where
  params : s.params.wf = true
  busy : s.phase = .busy
  command : commandOf s.cmd = some (.rot90 pack)
  accepted : s.commandError (some (rot90Required pack)) = none

section
variable {s t u : State} {pack : Bool} (hs : s.RotationInFlight pack) (hst : s.RotatedInto t)
include hs hst

/-- What `rot` leaves (R149): the swapped dimensions, and below `OUT_SIZE` the DST of the completion. -/
theorem State.RotatedInto.result :
    t.width = s.height ∧ t.height = s.width ∧
      ∀ a, a < bufSize s.imgHeight.toNat s.imgWidth.toNat pack →
        t.src.read? a = (completeRot90 pack s).dst.read? a := by
  obtain ⟨d, hd, hwidth, hheight, hbytes⟩ := hst.moved
  rw [engineTurn_of_accepted hs.busy hs.command hs.accepted] at hd
  obtain rfl : completeRot90 pack s = d := Host.Outcome.next.inj hd
  obtain ⟨-, -, hw, hh, -⟩ := commandError_eq_none_iff.1 hs.accepted
  have hsize : (completeRot90 pack s).outSize.toNat = bufSize s.imgHeight.toNat s.imgWidth.toNat pack :=
    ((resultFits_rot90 hs.accepted).toNat_registers hs.params).2
  rw [hsize] at hbytes
  exact ⟨hwidth.trans (ofNat_toNat_toInt hh), hheight.trans (ofNat_toNat_toInt hw), hbytes⟩

theorem State.RotatedInto.dims : t.imgWidth = s.imgHeight ∧ t.imgHeight = s.imgWidth := by
  obtain ⟨hwidth, hheight, -⟩ := hst.result hs
  exact ⟨congrArg BitVec.toInt hwidth, congrArg BitVec.toInt hheight⟩

/-- The needed size is the same for an image and the one turned, so the next rotation is accepted too (R119). -/
theorem State.RotatedInto.rotationInFlight : t.RotationInFlight pack := by
  obtain ⟨hwidth, hheight⟩ := hst.dims hs
  obtain ⟨f, hf, hw, hh, hfits⟩ := commandError_eq_none_iff.1 hs.accepted
  cases hf
  have hneed : rot90Required pack t.imgWidth.toNat t.imgHeight.toNat ≤ t.params.bufBytes := by
    rw [hwidth, hheight, hst.sameParams, rot90Required, max_comm]
    exact hfits
  exact ⟨hst.sameParams ▸ hs.params, hst.inFlight, hst.sameCommand ▸ hs.command,
    commandError_fits (hwidth ▸ hh) (hheight ▸ hw) hneed⟩

/-- R143 after the copy: pixel `(x, y)` has gone to `(y, W-1-x)`. -/
theorem State.RotatedInto.pixel {x y c : Nat} (hx : x < s.imgWidth.toNat) (hy : y < s.imgHeight.toNat) (hc : c < 3) :
    t.src.pixel? (stride s.imgHeight.toNat pack) y (s.imgWidth.toNat - 1 - x) c =
      s.src.pixel? (stride s.imgWidth.toNat pack) x y c := by
  obtain ⟨-, -, hbytes⟩ := hst.result hs
  have hin : addr (stride s.imgHeight.toNat pack) y (s.imgWidth.toNat - 1 - x) c <
      bufSize s.imgHeight.toNat s.imgWidth.toNat pack := addr_lt (le_stride _ pack) hy (by omega) hc
  exact (hbytes _ hin).trans (completeRot90_pixel hx hy hc)

/-- R122 after the copy: the padding of the turned image is 0. -/
theorem State.RotatedInto.padding {a : Nat} (ha : a < bufSize s.imgHeight.toNat s.imgWidth.toNat pack)
    (hpad : ¬ PixelByte s.imgHeight.toNat s.imgWidth.toNat (stride s.imgHeight.toNat pack) a) :
    t.src.read? a = some 0 := by
  obtain ⟨-, -, hbytes⟩ := hst.result hs
  have hbody : ∀ w ∈ rot90Writes pack s.imgWidth.toNat s.imgHeight.toNat s.src,
      PixelByte s.imgHeight.toNat s.imgWidth.toNat (stride s.imgHeight.toNat pack) w.1 :=
    fun w hw => mem_map_fst_rot90Writes.1 (List.mem_map_of_mem hw)
  exact (hbytes a ha).trans (finish_padding hbody s ha hpad)

variable (htu : t.RotatedInto u)
include htu

theorem State.RotatedInto.halfTurn_dims : u.width = s.width ∧ u.height = s.height := by
  obtain ⟨hwidth, hheight, -⟩ := hst.result hs
  obtain ⟨hwidth', hheight', -⟩ := htu.result (hst.rotationInFlight hs)
  exact ⟨hwidth'.trans hheight, hheight'.trans hwidth⟩

/-- R149: two rotations are a half turn, `(x, y) -> (y, W-1-x) -> (W-1-x, H-1-y)`. -/
theorem State.RotatedInto.halfTurn_pixel {x y c : Nat} (hx : x < s.imgWidth.toNat) (hy : y < s.imgHeight.toNat)
    (hc : c < 3) :
    u.src.pixel? (stride s.imgWidth.toNat pack) (s.imgWidth.toNat - 1 - x) (s.imgHeight.toNat - 1 - y) c =
      s.src.pixel? (stride s.imgWidth.toNat pack) x y c := by
  obtain ⟨hwidth, hheight⟩ := hst.dims hs
  have hsecond := htu.pixel (hst.rotationInFlight hs) (x := y) (y := s.imgWidth.toNat - 1 - x) (hwidth ▸ hy)
    (by rw [hheight]; omega) hc
  rw [hwidth, hheight] at hsecond
  exact hsecond.trans (hst.pixel hs hx hy hc)

end

/-- Settles O18: a half turn of a half turn is the image, and the last rotation has cleared the padding. -/
theorem fourRotationsReturnEveryPixel : Obligations.FourRotationsReturnEveryPixel := by
  intro s0 s1 s2 s3 s4 pack hparams hbusy hcommand haccepted h01 h12 h23 h34 W H
  have h0 : s0.RotationInFlight pack := ⟨hparams, hbusy, hcommand, haccepted⟩
  have h2 := h12.rotationInFlight (h01.rotationInFlight h0)
  have h3 := h23.rotationInFlight h2
  obtain ⟨hwidth2, hheight2⟩ := h01.halfTurn_dims h0 h12
  obtain ⟨hwidth4, hheight4⟩ := h23.halfTurn_dims h2 h34
  have hW2 : s2.imgWidth.toNat = W := congrArg (fun v : Word => v.toInt.toNat) hwidth2
  have hH2 : s2.imgHeight.toNat = H := congrArg (fun v : Word => v.toInt.toNat) hheight2
  refine ⟨hwidth2, hheight2, hwidth4.trans hwidth2, hheight4.trans hheight2, fun x y c hx hy hc => ?_,
    fun a ha hpad => ?_⟩
  · have hhalf := h01.halfTurn_pixel h0 h12 hx hy hc
    have hrest := h23.halfTurn_pixel h2 h34 (x := W - 1 - x) (y := H - 1 - y) (by omega) (by omega) hc
    rw [hW2, hH2, mirror_mirror hx, mirror_mirror hy] at hrest
    exact ⟨hhalf, hrest.trans hhalf⟩
  · obtain ⟨hW3, hH3⟩ := h23.dims h2
    refine h34.padding h3 ?_ ?_
    · rwa [hW3, hH3, hW2, hH2]
    · rw [hW3, hH3, hW2, hH2]
      rintro ⟨x, y, c, hx, hy, hc, he⟩
      exact hpad x y c hx hy hc he

end Sys2Proof.Machine
end

section
/-!
`BLUR5` (R160 to R174): the state after a completion, and one result byte by interior and border.
-/

namespace Sys2Proof.Machine

/-! ### The completion -/

/-- R173: the whole state after a completion of `BLUR5` on positive dimensions, but for DST. -/
theorem completeBlur5_eq {s : State} (hw : 0 < s.imgWidth) (hh : 0 < s.imgHeight) (border pack : Bool) :
    completeBlur5 border pack s = { s with
      dst := (completeBlur5 border pack s).dst, phase := .done, outWidth := s.width, outHeight := s.height
      outStride := BitVec.ofNat 32 (stride s.imgWidth.toNat pack)
      outSize := BitVec.ofNat 32 (bufSize s.imgWidth.toNat s.imgHeight.toNat pack) } := by
  have hwidth : BitVec.ofNat 32 s.imgWidth.toNat = s.width := ofNat_toNat_toInt hw
  have hheight : BitVec.ofNat 32 s.imgHeight.toNat = s.height := ofNat_toNat_toInt hh
  simp only [completeBlur5, finish, hwidth, hheight]

/-- Settles O19: the accepted issue, then the completion, whose exact numbers fit because the result does. -/
theorem blur5CompletesWithSameDimensions : Obligations.Blur5CompletesWithSameDimensions := by
  intro s border pack hp hparams hw hh W H hfits
  have he : s.commandError (requiredOf (.blur5 border pack)) = none := commandError_fits hw hh hfits
  let issued : State := { s with cmd := encode (.blur5 border pack), phase := .busy }
  have he' : issued.commandError (requiredOf (.blur5 border pack)) = none := (commandError_congr _ rfl rfl rfl).trans he
  exact ⟨exec_accepted hp he, _, engineTurn_after_issue he, completeBlur5_eq (s := issued) hw hh border pack,
    (resultFits_blur5 (border := border) he').toNat_registers hparams⟩

/-! ### One result byte -/

section
variable {s : State} {border pack : Bool} {x y c : Nat}

theorem interiorPixel.lt {W H : Nat} (h : interiorPixel x y W H) : x < W ∧ y < H := by
  obtain ⟨-, hx, -, hy⟩ := h
  omega

theorem completeBlur5_interior (hin : interiorPixel x y s.imgWidth.toNat s.imgHeight.toNat) (hc : c < 3) :
    (completeBlur5 border pack s).dst.pixel? (stride s.imgWidth.toNat pack) x y c =
      (windowSum s.params.kernel s.src (stride s.imgWidth.toNat pack) x y c).map narrow :=
  (read?_blur5Writes hin.lt.1 hin.lt.2 hc s.src _).trans (if_pos hin)

variable (hx : x < s.imgWidth.toNat) (hy : y < s.imgHeight.toNat) (hc : c < 3)
  (hout : ¬ interiorPixel x y s.imgWidth.toNat s.imgHeight.toNat)
include hx hy hc hout

/-- R167: under `PASS` the body copies a border byte. -/
theorem completeBlur5_passBorder :
    (completeBlur5 true pack s).dst.pixel? (stride s.imgWidth.toNat pack) x y c =
      s.src.pixel? (stride s.imgWidth.toNat pack) x y c :=
  (read?_blur5Writes hx hy hc s.src _).trans ((if_neg hout).trans (if_pos rfl))

/-- R166: without `PASS` a border byte keeps the 0 of the clearing. -/
theorem completeBlur5_zeroBorder :
    (completeBlur5 false pack s).dst.pixel? (stride s.imgWidth.toNat pack) x y c = some 0 := by
  have hbyte : addr (stride s.imgWidth.toNat pack) x y c < bufSize s.imgWidth.toNat s.imgHeight.toNat pack :=
    addr_lt (le_stride _ pack) hx hy hc
  rw [Memory.pixel?, completeBlur5, State.finish_dst, read?_blur5Writes hx hy hc, if_neg hout,
    if_neg Bool.false_ne_true, Memory.read?_writeAll_zeroWrites, if_pos hbyte]

end

/-- Settles O21: the body stores nothing to a border pixel, so its bytes are the clearing's. -/
theorem blur5ZeroBorderIsBlack : Obligations.Blur5ZeroBorderIsBlack := by
  intro s pack hbusy hcommand he W H
  exact ⟨_, engineTurn_of_accepted hbusy hcommand he, fun x y c hx hy hc => completeBlur5_zeroBorder hx hy hc⟩

/-- Settles O22: in the interior neither completion looks at `BORDER`. -/
theorem blur5PassBorderIsTheSource : Obligations.Blur5PassBorderIsTheSource := by
  intro s pack hbusy hcommand he W H
  let black : State := { s with cmd := encode (.blur5 false pack) }
  have hblack : black.commandError (requiredOf (.blur5 false pack)) = none := (commandError_congr _ rfl rfl rfl).trans he
  refine ⟨_, _, engineTurn_of_accepted hbusy hcommand he,
    engineTurn_of_accepted (s := black) hbusy (commandOf_encode rfl) hblack,
    fun x y c hx hy hc => completeBlur5_passBorder hx hy hc, fun x y c hc hin => ?_⟩
  exact (completeBlur5_interior hin hc).trans (completeBlur5_interior (s := black) hin hc).symm

end Sys2Proof.Machine
end

section
/-!
The weighted sum of a `BLUR5` window (R162 to R165), and with the printed kernel its bound, the uniform window and the impulse
response (R169 to R172).
-/

namespace Sys2Proof.Machine

/-! ### The sum -/

/-- `acc` of R162 as a double sum: the 25 bytes `b`, row outside and column inside, by the weights of `k`. -/
def weightedSum (k : Kernel) (b : Fin 5 → Fin 5 → Byte) : Nat :=
  ∑ j : Fin 5, ∑ i : Fin 5, Kernel.weight k j i * (b j i).toNat

theorem sum_map_taps (f : Fin 5 × Fin 5 → Nat) : (taps.map f).sum = ∑ j : Fin 5, ∑ i : Fin 5, f (j, i) := by
  simp only [taps, List.flatMap, List.map_flatten, List.sum_flatten, List.map_map, Fin.sum_univ_def, Function.comp_def]

/-- R163: a window that is written has its weighted sum. -/
theorem windowSum_eq_some {k : Kernel} {src : Memory} {S x y c : Nat} {b : Fin 5 → Fin 5 → Byte}
    (h : ∀ j i : Fin 5, src.pixel? S (x + i.val - 2) (y + j.val - 2) c = some (b j i)) :
    windowSum k src S x y c = some (weightedSum k b) := by
  rw [windowSum, foldl_addTap_some h, Nat.zero_add, sum_map_taps, weightedSum]

/-- A sum comes from 25 written bytes. -/
theorem exists_of_windowSum_eq_some {k : Kernel} {src : Memory} {S x y c acc : Nat}
    (h : windowSum k src S x y c = some acc) : ∃ b, acc = weightedSum k b := by
  have hwritten : ∀ j i : Fin 5, ∃ v, src.pixel? S (x + i.val - 2) (y + j.val - 2) c = some v := by
    intro j i
    refine Option.ne_none_iff_exists'.1 fun hnone => ?_
    rw [windowSum_eq_none hnone] at h
    cases h
  choose b hb using hwritten
  exact ⟨b, Option.some.inj (h.symm.trans (windowSum_eq_some hb))⟩

/-- Settles O20: the byte of an interior pixel is the narrowed sum of its window, or unspecified with it. -/
theorem blur5InteriorIsTheWeightedSum : Obligations.Blur5InteriorIsTheWeightedSum := by
  intro s border pack hbusy hcommand he W H S
  refine ⟨_, engineTurn_of_accepted hbusy hcommand he, rfl, fun x y c hin hc => ⟨fun b hb => ?_, fun j i hnone => ?_⟩⟩
  · exact (completeBlur5_interior hin hc).trans (congrArg (Option.map narrow) (windowSum_eq_some hb))
  · exact (completeBlur5_interior hin hc).trans (congrArg (Option.map narrow) (windowSum_eq_none hnone))

/-! ### The printed kernel -/

/-- R165: the byte type already takes the quotient mod 256. -/
theorem narrow_eq (acc : Nat) : narrow acc = BitVec.ofNat 8 (acc / 1000) :=
  BitVec.eq_of_toNat_eq (Nat.mod_mod _ (2 ^ 8))

/-- R7: the weights of the printed table sum to 987. -/
theorem weightedSum_printed_uniform (v : Byte) : weightedSum Config.kernel (fun _ _ => v) = 987 * v.toNat := by
  simp only [weightedSum, ← Finset.sum_mul, printedKernel_sum]

/-- R169: no window sums to more than the one whose bytes are all 255. -/
theorem weightedSum_printed_le (b : Fin 5 → Fin 5 → Byte) : weightedSum Config.kernel b ≤ 987 * 255 :=
  calc weightedSum Config.kernel b
    _ ≤ weightedSum Config.kernel (fun _ _ => 255) :=
      Finset.sum_le_sum fun j _ => Finset.sum_le_sum fun i _ =>
        Nat.mul_le_mul_left _ (Nat.le_of_lt_succ (b j i).isLt)
    _ = 987 * 255 := weightedSum_printed_uniform 255

theorem windowSum_printed_uniform {src : Memory} {S x y c : Nat} {v : Byte}
    (h : ∀ j i : Fin 5, src.pixel? S (x + i.val - 2) (y + j.val - 2) c = some v) :
    windowSum Config.kernel src S x y c = some (987 * v.toNat) :=
  (windowSum_eq_some h).trans (congrArg some (weightedSum_printed_uniform v))

/-- A packed 5 by 5 image, every byte 255. -/
def whiteImage : Memory := Memory.writeFrom [] 0 (List.replicate 75 255)

theorem whiteImage_pixel {x y c : Nat} (hx : x < 5) (hy : y < 5) (hc : c < 3) : whiteImage.pixel? 15 x y c = some 255 := by
  have hin : addr 15 x y c < 75 := addr_lt (w := 5) (h := 5) (by omega) hx hy hc
  rw [Memory.pixel?, whiteImage, Memory.read?_writeFrom, if_pos (Nat.zero_le _), Nat.sub_zero,
    List.getElem?_replicate_of_lt hin]
  rfl

/-- Settles O23: every sum is at most that of a white window, and a white image has such a window. -/
theorem printedKernelNeverWraps : Obligations.PrintedKernelNeverWraps := by
  refine ⟨fun src S x y c acc hsum => ?_, whiteImage, 15, 2, 2, 0, ?_⟩
  · obtain ⟨b, rfl⟩ := exists_of_windowSum_eq_some hsum
    have hle := weightedSum_printed_le b
    have hquot : weightedSum Config.kernel b / 1000 ≤ 251 := by omega
    have hmod : weightedSum Config.kernel b / 1000 % 256 = weightedSum Config.kernel b / 1000 :=
      Nat.mod_eq_of_lt (by omega)
    exact ⟨hle, hquot, hmod, by rw [narrow_eq, BitVec.toNat_ofNat, hmod]⟩
  · exact windowSum_printed_uniform (v := 255) fun j i => whiteImage_pixel (by omega) (by omega) (by omega)

/-- Settles O24: a uniform window sums to 987 times its byte. -/
theorem uniformWindowGives987Thousandths : Obligations.UniformWindowGives987Thousandths := by
  refine ⟨fun src S x y c v h => ?_, by decide⟩
  rw [windowSum_printed_uniform h, Option.map_some, narrow_eq]

/-! ### The impulse response -/

/-- The window at `(x, y)` of a channel that is 0 but for `v` at `(x0, y0)`. -/
def impulseWindow (x y x0 y0 : Nat) (v : Byte) (j i : Fin 5) : Byte :=
  if x0 + 2 = x + i.val ∧ y0 + 2 = y + j.val then v else 0

section
variable {x y x0 y0 : Nat} {k : Kernel} {v : Byte}

/-- The window of an interior pixel stays inside the image, so the truncated subtractions of its addresses are exact. -/
theorem impulse_pixel {src : Memory} {S W H c : Nat}
    (hsrc : ∀ x y, x < W → y < H → src.pixel? S x y c = some (if x = x0 ∧ y = y0 then v else 0))
    (hin : interiorPixel x y W H) (j i : Fin 5) :
    src.pixel? S (x + i.val - 2) (y + j.val - 2) c = some (impulseWindow x y x0 y0 v j i) := by
  obtain ⟨hx, hxW, hy, hyH⟩ := hin
  have hat : (x + i.val - 2 = x0 ∧ y + j.val - 2 = y0) ↔ (x0 + 2 = x + i.val ∧ y0 + 2 = y + j.val) := by omega
  rw [hsrc _ _ (by omega) (by omega), impulseWindow, if_congr hat rfl rfl]

theorem weightedSum_impulse_hit {j i : Fin 5} (hi : x0 + 2 = x + i.val) (hj : y0 + 2 = y + j.val) :
    weightedSum k (impulseWindow x y x0 y0 v) = Kernel.weight k j i * v.toNat := by
  have hzero : ∀ j' i' : Fin 5, j' ≠ j ∨ i' ≠ i → Kernel.weight k j' i' * (impulseWindow x y x0 y0 v j' i').toNat = 0 := by
    intro j' i' hne
    rw [impulseWindow, if_neg (by omega)]
    rfl
  rw [weightedSum,
    Fintype.sum_eq_single j fun j' hj' => Finset.sum_eq_zero fun i' _ => hzero j' i' (.inl hj'),
    Fintype.sum_eq_single i fun i' hi' => hzero j i' (.inr hi'), impulseWindow, if_pos ⟨hi, hj⟩]

theorem weightedSum_impulse_missed (h : ∀ j i : Fin 5, ¬ (x0 + 2 = x + i.val ∧ y0 + 2 = y + j.val)) :
    weightedSum k (impulseWindow x y x0 y0 v) = 0 :=
  Finset.sum_eq_zero fun j _ => Finset.sum_eq_zero fun i _ => by
    rw [impulseWindow, if_neg (h j i)]
    rfl

end

/-- Settles O25: the window of an interior pixel holds the impulse at one tap, whose weight is then the sum, or nowhere. -/
theorem impulseShowsTheKernel : Obligations.ImpulseShowsTheKernel := by
  refine ⟨?_, by decide⟩
  intro s border pack x0 y0 c v hbusy hcommand he hkernel W H S _ _ hc hsrc
  refine ⟨_, engineTurn_of_accepted hbusy hcommand he, fun x y hin => ?_⟩
  have hbyte : (completeBlur5 border pack s).dst.pixel? S x y c =
      some (narrow (weightedSum Config.kernel (impulseWindow x y x0 y0 v))) := by
    rw [← hkernel]
    exact (completeBlur5_interior hin hc).trans
      (congrArg (Option.map narrow) (windowSum_eq_some (impulse_pixel hsrc hin)))
  refine ⟨fun j i hi hj => hbyte.trans ?_, fun hmissed => hbyte.trans ?_⟩
  · rw [weightedSum_impulse_hit hi hj, narrow_eq]
  · rw [weightedSum_impulse_missed hmissed, narrow_eq]
    rfl

end Sys2Proof.Machine
end

section
/-!
The register port (R190, R191): one read or write of a register, by register and phase.
-/

namespace Sys2Proof.Machine

/-- A turn with a host access makes the access on the state with the turn taken off. -/
theorem step_host_access (s : State) (rest : List Turn) (a : Access) :
    step { s with turns := .host (.access a) :: rest } = runAccess a { s with turns := rest } :=
  step_access rfl

/-- Settles O6: the turn is one register write, and the write runs the instruction it carries. -/
theorem stepRunsTheDecodedInstruction : Obligations.StepRunsTheDecodedInstruction :=
  fun s rest _ _ _ h => (step_host_access s rest _).trans (runAccess_write_instr h _)

/-! ### Reads -/

/-- The registers at the offsets of R34, in the order of their addresses. -/
def registerMap : List (Nat × Reg) :=
  [(0x00, .width), (0x04, .height), (0x08, .cmd), (0x0C, .status), (0x10, .ctrl), (0x14, .outWidth), (0x18, .outHeight),
    (0x1C, .outStride), (0x20, .outSize), (0x24, .reserved), (0x28, .reserved), (0x2C, .reserved), (0x30, .reserved),
    (0x34, .reserved), (0x38, .reserved), (0x3C, .reserved)]

theorem regAt_of_mem_registerMap : ∀ p ∈ registerMap, regAt p.1 = some p.2 := by decide

theorem State.regValue_with_turns (s : State) (ts : List Turn) (r : Reg) :
    ({ s with turns := ts } : State).regValue r = s.regValue r := by
  cases r <;> rfl

theorem step_readReg {off : Nat} {r : Reg} (hr : regAt off = some r) (s : State) (rest : List Turn) :
    step { s with turns := .host (.access (.readReg off)) :: rest } =
      .next (readRegister r { s with turns := rest }) := by
  rw [step_host_access]
  simp only [runAccess, hr]

theorem step_readReg_not_busy {s : State} (hp : s.phase ≠ .busy) {off : Nat} {r : Reg} (hr : regAt off = some r)
    (rest : List Turn) :
    step { s with turns := .host (.access (.readReg off)) :: rest } =
      .next { s with turns := rest, reads := s.regValue r :: s.reads } := by
  rw [step_readReg hr, readRegister, if_neg hp, State.regValue_with_turns]
  rfl

theorem readRegister_status (s : State) : readRegister .status s = s.pushRead s.statusWord := by
  rw [readRegister]
  split <;> rfl

/-- R29, R34: `CTRL` and the reserved offsets read 0 in `BUSY` too. -/
theorem readRegister_busy_zero {s : State} (hp : s.phase = .busy) {r : Reg} (hr : r = .ctrl ∨ r = .reserved) :
    readRegister r s = (s.pushRead 0).markHazard := by
  rw [readRegister, if_pos hp]
  rcases hr with rfl | rfl <;> rfl

theorem readRegister_busy_free {s : State} (hp : s.phase = .busy) {r : Reg}
    (hr : r ≠ .status ∧ r ≠ .ctrl ∧ r ≠ .reserved) : readRegister r s = s.pushFreeWord.markHazard := by
  obtain ⟨hstatus, hctrl, hreserved⟩ := hr
  rcases readRegister_cases r s with ⟨hidle, -⟩ | ⟨-, h, -⟩ | ⟨-, h | h, -⟩ | ⟨-, -, -, -, h⟩
  · exact absurd hp hidle
  · exact absurd h hstatus
  · exact absurd h hctrl
  · exact absurd h hreserved
  · exact h

/-- Settles O32: the map's own values outside `BUSY`, and in `BUSY` the three kinds of register. -/
theorem registerReadsByPhase : Obligations.RegisterReadsByPhase := by
  intro s rest off
  refine ⟨fun hp v hmem => ?_, fun hp hoff => ?_, fun hp hmem => ?_, fun hp hmem => ?_⟩
  · have hmap : (off, v) ∈ registerMap.map fun p => (p.1, s.regValue p.2) := hmem
    obtain ⟨⟨off', r⟩, hreg, heq⟩ := List.mem_map.1 hmap
    obtain ⟨rfl, rfl⟩ := Prod.mk.inj heq
    exact step_readReg_not_busy hp (regAt_of_mem_registerMap _ hreg) rest
  · subst hoff
    refine ⟨(step_readReg (r := .status) rfl s rest).trans ?_, ?_⟩
    · rw [readRegister_status]
      rfl
    · rw [s.getLsbD_statusWord]
      exact decide_eq_true hp
  · have hzero : ∀ off ∈ [0x10, 0x24, 0x28, 0x2C, 0x30, 0x34, 0x38, 0x3C],
        ∃ r ∈ regAt off, r = .ctrl ∨ r = .reserved := by decide
    obtain ⟨r, hr, hkind⟩ := hzero off hmem
    rw [step_readReg hr, readRegister_busy_zero (s := { s with turns := rest }) hp hkind]
    rfl
  · have hfree : ∀ off ∈ [0x00, 0x04, 0x08, 0x14, 0x18, 0x1C, 0x20],
        ∃ r ∈ regAt off, r ≠ .status ∧ r ≠ .ctrl ∧ r ≠ .reserved := by decide
    obtain ⟨r, hr, hkind⟩ := hfree off hmem
    rw [step_readReg hr, readRegister_busy_free (s := { s with turns := rest }) hp hkind]
    exact ⟨_, rfl⟩

/-! ### Writes -/

theorem runAccess_plain_write {off : Nat} {r : Reg} (hr : regAt off = some r) (hcmd : r ≠ .cmd) (hctrl : r ≠ .ctrl)
    (v : Word) (s : State) : runAccess (.writeReg off v) s = .next (writeRegister r v s) := by
  simp only [runAccess, hr]
  cases r with
  | cmd => exact absurd rfl hcmd
  | ctrl => exact absurd rfl hctrl
  | _ => rfl

/-- R191: outside `BUSY` a write to a register the host cannot set is ignored. -/
theorem writeRegister_ignored {s : State} (hp : s.phase ≠ .busy) {r : Reg} (hwidth : r ≠ .width) (hheight : r ≠ .height)
    (v : Word) : writeRegister r v s = s := by
  rcases writeRegister_cases r v s with ⟨hbusy, -⟩ | ⟨-, h, -⟩ | ⟨-, h, -⟩ | ⟨-, -, -, h⟩
  · exact absurd hbusy hp
  · exact absurd h hwidth
  · exact absurd h hheight
  · exact h

/-- R191: a `CTRL` write with bit 0 set is `SRST`, in any phase. -/
theorem runAccess_ctrl_reset {v : Word} (hv : v.getLsbD 0 = true) (s : State) :
    runAccess (.writeReg 0x10 v) s = .next (softReset s) :=
  runAccess_write_instr ((decodeWrite_ctrl v).trans (if_pos hv)) s

theorem runAccess_ctrl_ignored {v : Word} (hv : v.getLsbD 0 = false) (s : State) :
    runAccess (.writeReg 0x10 v) s = .next s := by
  have hnone : decodeCtrl v = none := if_neg (ne_true_of_eq_false hv)
  have hwrite : runAccess (.writeReg 0x10 v) s = writeTo .ctrl v s := rfl
  rw [hwrite]
  simp only [writeTo, hnone]

/-- R191: in `BUSY` a write to any register but `CTRL` is dropped and sets `HZD`. -/
theorem runAccess_write_busy {s : State} (hp : s.phase = .busy) {off : Nat} {r : Reg} (hr : regAt off = some r)
    (hctrl : r ≠ .ctrl) (v : Word) : runAccess (.writeReg off v) s = .next s.markHazard := by
  by_cases hcmd : r = .cmd
  · subst hcmd
    rw [regAt_eq_cmd hr, runAccess_cmd, issue_busy hp]
  · rw [runAccess_plain_write hr hcmd hctrl, writeRegister, if_pos hp]

/-- Settles O33: the plain registers, `CMD` and `CTRL` outside `BUSY`, and in `BUSY` every register but `CTRL` alike. -/
theorem registerWritesByPhase : Obligations.RegisterWritesByPhase := by
  intro s rest off v
  simp only [step_host_access]
  refine ⟨?_, ?_, fun hp hmem => ?_, ?_, ?_, ?_, ?_, fun hp hmem => ?_⟩
  · rintro hp rfl
    exact runAccess_setWidth (s := { s with turns := rest }) hp v
  · rintro hp rfl
    exact runAccess_setHeight (s := { s with turns := rest }) hp v
  · have hplain : ∀ off ∈ [0x0C, 0x14, 0x18, 0x1C, 0x20, 0x24, 0x28, 0x2C, 0x30, 0x34, 0x38, 0x3C],
        ∃ r ∈ regAt off, r ≠ .cmd ∧ r ≠ .ctrl ∧ r ≠ .width ∧ r ≠ .height := by decide
    obtain ⟨r, hr, hcmd, hctrl, hwidth, hheight⟩ := hplain off hmem
    rw [runAccess_plain_write hr hcmd hctrl, writeRegister_ignored (s := { s with turns := rest }) hp hwidth hheight]
  · rintro hp rfl
    rw [runAccess_cmd, issue_idle_or_done (s := { s with turns := rest }) hp]
  · rintro hp rfl
    rw [runAccess_cmd, issue_err (s := { s with turns := rest }) hp]
  · rintro rfl hv
    exact runAccess_ctrl_reset hv _
  · rintro rfl hv
    exact runAccess_ctrl_ignored hv _
  · have hdropped : ∀ off ∈ [0x00, 0x04, 0x08, 0x0C, 0x14, 0x18, 0x1C, 0x20, 0x24, 0x28, 0x2C, 0x30, 0x34, 0x38, 0x3C],
        ∃ r ∈ regAt off, r ≠ .ctrl := by decide
    obtain ⟨r, hr, hctrl⟩ := hdropped off hmem
    exact runAccess_write_busy (s := { s with turns := rest }) hp hr hctrl v

end Sys2Proof.Machine
end

section
/-!
The buffer ports (R193, R194): one byte read or stored, by range and phase.
-/

namespace Sys2Proof.Machine

theorem State.mem_with_turns (s : State) (ts : List Turn) (space : Space) :
    ({ s with turns := ts } : State).mem space = s.mem space := by
  cases space <;> rfl

/-- R60: replacing the memory of one space leaves the other alone. -/
theorem State.mem_withMem (s : State) (space space' : Space) (m : Memory) :
    (s.withMem space m).mem space' = if space' = space then m else s.mem space' := by
  cases space <;> cases space' <;> rfl

theorem State.withMem_eq (s : State) (space : Space) (m : Memory) :
    s.withMem space m = { s with src := (s.withMem space m).src, dst := (s.withMem space m).dst } := by
  cases space <;> rfl

/-! ### Reads -/

theorem readPort_busy {s : State} (hp : s.phase = .busy) (space : Space) (a : Nat) :
    readPort space a s = s.pushFreeByte.markHazard := if_pos hp

theorem readPort_defined {s : State} (hp : s.phase ≠ .busy) {space : Space} {a : Nat} (ha : a < s.params.bufBytes)
    {b : Byte} (hb : (s.mem space).read? a = some b) : readPort space a s = s.pushRead (b.setWidth 32) := by
  simp only [readPort, if_neg hp, loadByte, if_pos ha, hb]

/-- R69, R244: out of range or unwritten, the byte is free. -/
theorem readPort_undefined {s : State} (hp : s.phase ≠ .busy) {space : Space} {a : Nat}
    (h : s.params.bufBytes ≤ a ∨ (s.mem space).read? a = none) : readPort space a s = s.pushFreeByte := by
  rcases readPort_cases space a s with ⟨hbusy, -⟩ | ⟨-, hfree⟩ | ⟨b, -, ha, hb, -⟩
  · exact absurd hbusy hp
  · exact hfree
  · rcases h with hrange | hnone
    · exact absurd ha hrange.not_gt
    · exact absurd (hnone.symm.trans hb) nofun

/-- Settles O34: the three outcomes of a port read, on the state with the turn taken off. -/
theorem portReadsByPhase : Obligations.PortReadsByPhase := by
  intro s rest space a
  have hmem := s.mem_with_turns rest space
  simp only [step_host_access, runAccess]
  refine ⟨fun b hp ha hb => ?_, fun hp h => ?_, fun hp => ?_⟩
  · rw [readPort_defined (s := { s with turns := rest }) hp ha (hmem ▸ hb)]
    rfl
  · rw [readPort_undefined (s := { s with turns := rest }) hp (hmem ▸ h)]
    exact ⟨_, rfl⟩
  · rw [readPort_busy (s := { s with turns := rest }) hp]
    exact ⟨_, rfl⟩

/-! ### Stores -/

/-- A store's effect on a byte of either space. -/
theorem State.read?_store (s : State) (space space' : Space) (a b : Nat) (v : Byte) :
    ((s.withMem space ((s.mem space).write a v)).mem space').read? b =
      if space' = space ∧ b = a then some v else (s.mem space').read? b := by
  rw [State.mem_withMem]
  by_cases hspace : space' = space
  · subst hspace
    rw [if_pos rfl, Memory.read?_write]
    simp only [true_and, eq_comm]
  · rw [if_neg hspace, if_neg fun h => hspace h.1]

/-- Settles O35: a store in range replaces one byte of one space, and every other write is dropped. -/
theorem portWritesByPhase : Obligations.PortWritesByPhase := by
  intro s rest space a v
  simp only [step_host_access, runAccess]
  rcases writePort_cases space a v { s with turns := rest } with ⟨hbusy, h⟩ | ⟨hp, ha, h⟩ | ⟨hp, ha, h⟩
  · rw [h]
    exact ⟨fun hp => absurd hbusy hp, fun hp => absurd hbusy hp, fun _ => rfl⟩
  · rw [h]
    exact ⟨fun _ hlt => absurd hlt ha, fun _ _ => rfl, fun hbusy => absurd hbusy hp⟩
  · rw [h]
    refine ⟨fun _ _ => ⟨_, rfl, State.withMem_eq _ space _, fun space' b => ?_⟩, fun _ hle => absurd ha hle.not_gt,
      fun hbusy => absurd hbusy hp⟩
    rw [State.read?_store, State.mem_with_turns]

end Sys2Proof.Machine
end

section
/-!
`POLL` after a command (R196, R100, U10) and the soft reset (R195).
-/

namespace Sys2Proof.Machine

/-! ### `POLL` -/

/-- Outside `BUSY` a `POLL` is one `STATUS` read. -/
theorem step_poll_not_busy {s : State} (hp : s.phase ≠ .busy) (rest : List Turn) :
    step { s with turns := .host .poll :: rest } =
      .next { s with turns := rest, reads := s.statusWord :: s.reads } := by
  have hpoll : pollTurn { s with turns := rest } = .next (readRegister .status { s with turns := rest }) := if_neg hp
  rw [step_poll rfl]
  exact hpoll.trans (congrArg _ (readRegister_status _))

/-- In `BUSY` a `POLL` is the engine's turn, and the `POLL` is still to be made (U10). -/
theorem step_poll_busy {s : State} (hp : s.phase = .busy) (rest : List Turn) :
    step { s with turns := .host .poll :: rest } = engineTurn { s with turns := .host .poll :: rest } := by
  have hpoll : pollTurn { s with turns := rest } = engineTurn { s with turns := .host .poll :: rest } := if_pos hp
  exact (step_poll rfl).trans hpoll

/-- The turn that writes an instruction runs it. -/
theorem step_encodeAccess (i : Instr) (s : State) (rest : List Turn) :
    step { s with turns := .host (.access (encodeAccess i)) :: rest } = exec i { s with turns := rest } :=
  stepRunsTheDecodedInstruction s rest _ _ i (decodeWrite_encode i)

section
variable {s : State} {i : Instr} (hp : s.phase = .idle ∨ s.phase = .done) (rest : List Turn)
include hp

/-- A refused command, then the `STATUS` read of the `POLL`. -/
theorem reaches_poll_of_refused {f : Nat → Nat → Nat} (hf : requiredOf i = some f) {e : ErrorKind}
    (he : s.commandError (some f) = some e) :
    ∃ t, Reaches { s with turns := .host (.access (encodeAccess i)) :: .host .poll :: rest } t ∧ t.turns = rest ∧
      t.reads = t.statusWord :: s.reads ∧ t.phase = .err ∧ t.errcode = e.code := by
  have hissue := (step_encodeAccess i s (.host .poll :: rest)).trans
    (exec_refused (s := { s with turns := .host .poll :: rest }) hp hf he)
  have hread := step_poll_not_busy (s := { s with cmd := encode i, phase := .err, errcode := e.code }) nofun rest
  exact ⟨_, .of_step hissue (.of_step hread (.refl _)), rfl, rfl, rfl, rfl⟩

/-- An accepted command, its completion at the `POLL`, then the `STATUS` read. -/
theorem reaches_poll_of_accepted (he : s.commandError (requiredOf i) = none) :
    ∃ t, Reaches { s with turns := .host (.access (encodeAccess i)) :: .host .poll :: rest } t ∧ t.turns = rest ∧
      t.reads = t.statusWord :: s.reads ∧ t.phase = .done := by
  have hissue := (step_encodeAccess i s (.host .poll :: rest)).trans
    (exec_accepted (s := { s with turns := .host .poll :: rest }) hp he)
  have hturn := engineTurn_after_issue (s := { s with turns := .host .poll :: rest }) he
  obtain ⟨-, ow, oh, pack, body, -, hfinish⟩ := complete_eq_finish ((engineTurn_busy rfl).symm.trans hturn)
  rw [hfinish] at hturn
  have hcomplete := (step_poll_busy (s := { s with cmd := encode i, phase := .busy }) rfl rest).trans hturn
  have hread :=
    step_poll_not_busy (s := finish ow oh pack body { s with cmd := encode i, phase := .busy }) nofun rest
  exact ⟨_, .of_step hissue (.of_step hcomplete (.of_step hread (.refl _))), rfl, rfl, rfl⟩

end

/-- Settles O42: the two outcomes of the checks of issue. -/
theorem pollAfterCommandShowsDoneOrErr : Obligations.PollAfterCommandShowsDoneOrErr := by
  intro s rest i hp hi
  obtain ⟨f, hf⟩ := Option.isSome_iff_exists.1 hi
  cases he : s.commandError (requiredOf i) with
  | none =>
    obtain ⟨t, ⟨k, hk⟩, hturns, hreads, hdone⟩ := reaches_poll_of_accepted hp rest he
    exact ⟨k, t, hk, hturns, hreads, fun _ => hdone, nofun⟩
  | some e =>
    obtain ⟨t, ⟨k, hk⟩, hturns, hreads, herr, hcode⟩ := reaches_poll_of_refused hp rest hf (hf ▸ he)
    exact ⟨k, t, hk, hturns, hreads, nofun, fun e' he' => Option.some.inj he' ▸ ⟨herr, hcode⟩⟩

/-! ### Soft reset -/

theorem softReset_statusWord (s : State) : (softReset s).statusWord = 0 := by
  have hreset : (softReset s).statusWord = State.reset.statusWord := rfl
  rw [hreset]
  decide

/-- R33, R195: a soft reset in `BUSY` leaves no byte of DST defined. -/
theorem softReset_dst_of_busy {s : State} (hp : s.phase = .busy) (a : Nat) : (softReset s).dst.read? a = none := by
  rw [State.softReset_dst, if_pos hp, Memory.read?_nil]

theorem resets_of_leaves_err {s t : State} (h : step s = .next t) (hs : s.phase = .err) (ht : t.phase ≠ .err) :
    ∃ turn, s.turns.head? = some turn ∧ turn.resets = true := by
  rcases phaseChangesAlongItsTable s t h (fun heq => ht (heq.symm.trans hs)) with ⟨-, hreset⟩ | ⟨hp | hp, -⟩ | ⟨hp, -⟩
  · exact hreset
  · exact absurd (hs.symm.trans hp) nofun
  · exact absurd (hs.symm.trans hp) nofun
  · exact absurd (hs.symm.trans hp) nofun

/-- Settles O43: what `softReset` leaves, and that only the arrows of the resets leave `ERR` or clear `HZD`. -/
theorem softResetClearsAllButTheMemories : Obligations.SoftResetClearsAllButTheMemories := by
  intro s ignored
  refine ⟨rfl, fun t h => ?_, fun t h hchange => ?_⟩
  · cases h
    exact ⟨softReset_statusWord s, engineTurn_not_busy nofun, softReset_dst_of_busy⟩
  · rcases hchange with ⟨hs, ht⟩ | ⟨hs, ht⟩
    · exact resets_of_leaves_err h hs ht
    · exact (hazardIsSetInBusyAndClearedByReset s t h).2 hs ht

end Sys2Proof.Machine
end

section
/-!
Errors and the hazard flag (R210, R216, R219): only a refused `CMD` write enters `ERR`, only a reset leaves it, and
`HZD` changes nothing that the engine or an issue does.
-/

namespace Sys2Proof.Machine

/-! ### Entry into `ERR` -/

/-- R119: each refusal names the check that failed, all earlier ones having passed. -/
theorem commandError_some_cases {s : State} {need : Option (Nat → Nat → Nat)} {e : ErrorKind}
    (h : s.commandError need = some e) :
    (e = .illegal ∧ need = none) ∨
    (e = .geometry ∧ need.isSome ∧ (s.imgWidth ≤ 0 ∨ s.imgHeight ≤ 0)) ∨
    (e = .size ∧ 0 < s.imgWidth ∧ 0 < s.imgHeight ∧
      ∃ f, need = some f ∧ s.params.bufBytes < f s.imgWidth.toNat s.imgHeight.toNat) := by
  cases need with
  | none => exact .inl ⟨(Option.some.inj h).symm, rfl⟩
  | some f =>
    rw [State.commandError] at h
    split at h
    · rename_i hdims
      exact .inr (.inl ⟨(Option.some.inj h).symm, rfl, hdims⟩)
    · rename_i hdims
      obtain ⟨hw, hh⟩ := not_or.1 hdims
      split at h
      · rename_i hsize
        exact .inr (.inr ⟨(Option.some.inj h).symm, not_le.1 hw, not_le.1 hh, f, rfl, hsize⟩)
      · cases h

/-- R28 in phase `ERR`: bit 3 is `HZD`, bit 2 is set, and bits 1 and 0 are clear. -/
theorem State.statusWord_of_err {s : State} (hp : s.phase = .err) :
    s.statusWord =
      if s.hzd then 0#24 ++ s.errcode ++ 1#1 ++ 1#1 ++ 0#1 ++ 0#1
      else 0#24 ++ s.errcode ++ 0#1 ++ 1#1 ++ 0#1 ++ 0#1 := by
  rw [State.statusWord, hp]
  cases s.hzd <;> rfl

/-- Of the effects of a host access, only a refused issue enters `ERR`. -/
theorem AccessEffect.enters_err {s t : State} {a : Access} (h : AccessEffect s a t) (hs : s.phase ≠ .err)
    (ht : t.phase = .err) :
    (s.phase = .idle ∨ s.phase = .done) ∧ ∃ v e, a = .writeReg 0x08 v ∧
      s.commandError ((commandOf v).bind requiredOf) = some e ∧ t = raiseError e { s with cmd := v } := by
  cases h with
  | refuse v e hp he => exact ⟨hp, v, e, rfl, he, rfl⟩
  | softReset => cases ht
  | accept => cases ht
  | store space => cases space <;> exact absurd ht hs
  | _ => exact absurd ht hs

/-- R210: a step that enters `ERR` is a `CMD` write that issue refuses. -/
theorem step_enters_err {s t : State} (h : step s = .next t) (hs : s.phase ≠ .err) (ht : t.phase = .err) :
    (s.phase = .idle ∨ s.phase = .done) ∧ ∃ v e rest ts,
      s.turns = .host (.access (.writeReg 0x08 v)) :: rest ∧
      s.commandError ((commandOf v).bind requiredOf) = some e ∧
      t = raiseError e { s with cmd := v, turns := ts } := by
  rcases step_next h with ⟨-, rfl⟩ | ⟨-, -, ts, hc⟩ | ⟨-, -, rfl⟩ | ⟨turn, a, u, ts, hturn, ha, hu, rfl⟩
  · cases ht
  · obtain ⟨-, ow, oh, pack, body, -, rfl⟩ := complete_eq_finish hc
    cases ht
  · exact absurd ht hs
  · obtain ⟨hp, v, e, rfl, he, rfl⟩ := (runAccess_effect hu).enters_err hs ht
    obtain rfl := Turn.eq_access_of_writeReg ha (Nat.le_refl _)
    obtain ⟨rest, hturns⟩ := List.head?_eq_some_iff.1 hturn
    exact ⟨hp, v, e, rest, ts, hturns, he, rfl⟩

/-- Settles O12: the code and the `STATUS` value are those of the check that refused the word. -/
theorem errorsAriseOnlyAtCommandWrites : Obligations.ErrorsAriseOnlyAtCommandWrites := by
  intro s t h hs ht
  obtain ⟨hp, v, e, rest, ts, hturns, he, rfl⟩ := step_enters_err h hs ht
  refine ⟨hp, rfl, rfl, rfl, v, rest, hturns, rfl, ?_⟩
  rw [State.statusWord_of_err ht, State.raiseError_errcode, State.raiseError_hzd]
  rcases commandError_some_cases he with ⟨rfl, -⟩ | ⟨rfl, hneed, hdims⟩ | ⟨rfl, hw, hh, f, hneed, hsize⟩
  · exact .inl ⟨rfl, (commandError_illegal_iff he).1 rfl, rfl⟩
  · exact .inr (.inl ⟨rfl, Option.isSome_of_isSome_bind hneed, hdims, rfl⟩)
  · obtain ⟨i, hi, hf⟩ := Option.bind_eq_some_iff.1 hneed
    exact .inr (.inr ⟨rfl, hw, hh, ⟨i, f, hi, hf, hsize⟩, rfl⟩)

/-! ### `ERR` is sticky -/

/-- R216, R217: what phase `ERR` holds until a reset. -/
def ErrorKept (s t : State) : Prop :=
  t.phase = .err ∧ t.errcode = s.errcode ∧ t.cmd = s.cmd ∧ t.hzd = s.hzd ∧
  t.outWidth = s.outWidth ∧ t.outHeight = s.outHeight ∧ t.outStride = s.outStride ∧ t.outSize = s.outSize

/-- In `ERR` a host access reads, or writes an operand or a memory, unless it is the soft reset. -/
theorem AccessEffect.of_err {s t : State} {a : Access} (h : AccessEffect s a t) (herr : s.phase = .err) :
    ErrorKept s t ∨ ∃ v, a = .writeReg 0x10 v ∧ v.getLsbD 0 = true := by
  cases h with
  | softReset v hv => exact .inr ⟨v, rfl, hv⟩
  | hazard _ _ _ hbusy _ => cases herr.symm.trans hbusy
  | refuse _ _ hp _ => rcases hp with hp | hp <;> cases herr.symm.trans hp
  | accept _ _ hp _ _ => rcases hp with hp | hp <;> cases herr.symm.trans hp
  | store space => cases space <;> exact .inl ⟨herr, rfl, rfl, rfl, rfl, rfl, rfl, rfl⟩
  | _ => exact .inl ⟨herr, rfl, rfl, rfl, rfl, rfl, rfl, rfl⟩

/-- Settles O45: no completion is enabled in `ERR`, and the other turns are a wait or a host access. -/
theorem errIsLeftOnlyByReset : Obligations.ErrIsLeftOnlyByReset := by
  intro s t h herr hreset
  rcases step_next h with ⟨hturn, -⟩ | ⟨hbusy, -⟩ | ⟨-, -, rfl⟩ | ⟨turn, a, u, ts, hturn, ha, hu, rfl⟩
  · cases hreset .reset hturn
  · cases herr.symm.trans hbusy
  · exact ⟨herr, rfl, rfl, rfl, rfl, rfl, rfl, rfl⟩
  · rcases (runAccess_effect hu).of_err herr with hkept | ⟨v, rfl, hv⟩
    · exact hkept
    · cases (hreset turn hturn).symm.trans (Turn.resets_of_ctrl_write ha hv)

/-! ### `HZD` disturbs nothing -/

theorem commandError_markHazard (s : State) (need : Option (Nat → Nat → Nat)) :
    s.markHazard.commandError need = s.commandError need := commandError_congr need rfl rfl rfl

theorem issueNow_markHazard (word : Word) (need : Option (Nat → Nat → Nat)) (s : State) :
    issueNow word need s.markHazard = (issueNow word need s).markHazard := by
  have herror := commandError_markHazard s need
  cases he : s.commandError need with
  | none =>
    rw [issueNow_accepted he, issueNow_accepted (herror.trans he)]
    rfl
  | some e =>
    rw [issueNow_refused he, issueNow_refused (herror.trans he)]
    rfl

/-- R219: an issue is the same but for the flag, in every phase. -/
theorem issue_markHazard (word : Word) (need : Option (Nat → Nat → Nat)) (s : State) :
    issue word need s.markHazard = (issue word need s).markHazard := by
  rcases issue_cases word need s with ⟨hp, h⟩ | ⟨herr, h⟩ | ⟨hbusy, h⟩
  · rw [h, issue_idle_or_done (s := s.markHazard) hp, issueNow_markHazard]
  · rw [h, issue_err (s := s.markHazard) herr]
  · rw [h, issue_busy (s := s.markHazard) hbusy]

theorem completeInstr_markHazard (i : Instr) (s : State) :
    completeInstr i s.markHazard = (completeInstr i s).markHazard := by
  cases i <;> rfl

/-- R219: the engine's turn is the same but for the flag. -/
theorem engineTurn_markHazard {s t : State} (h : engineTurn s = .next t) :
    engineTurn s.markHazard = .next t.markHazard := by
  by_cases hbusy : s.phase = .busy
  · rw [engineTurn_busy hbusy] at h
    obtain ⟨i, hi, he, rfl⟩ := complete_next h
    rw [← completeInstr_markHazard]
    exact engineTurn_of_accepted hbusy hi ((commandError_markHazard s _).trans he)
  · rw [engineTurn_not_busy hbusy] at h
    cases h
    exact engineTurn_not_busy hbusy

/-- Settles O31: a command's `exec` is an issue, and setting the flag commutes with it and with the engine's turn. -/
theorem hazardFlagDisturbsNoCommand : Obligations.HazardFlagDisturbsNoCommand := by
  refine ⟨fun s t h => engineTurn_markHazard h, fun i s t hi h => ?_⟩
  obtain ⟨f, hf⟩ := Option.isSome_iff_exists.1 hi
  rw [exec_command hf] at h
  cases h
  exact (exec_command hf s.markHazard).trans (congrArg _ (issue_markHazard ..))

end Sys2Proof.Machine
end

section
/-!
The hardware reset (R240, R37), and the engine at rest outside `BUSY` (R242).
-/

namespace Sys2Proof.Machine

/-- Settles O44: the turn is `hardwareReset`, and `STATUS` in the reset state reads as after a soft reset. -/
theorem hardwareResetGivesTheResetState : Obligations.HardwareResetGivesTheResetState :=
  ⟨fun _ _ => step_reset rfl,
    fun p => ⟨rfl, rfl, rfl, rfl, softReset_statusWord (.resetWith p), rfl, rfl, rfl, rfl, rfl, rfl, rfl,
      Memory.read?_nil, Memory.read?_nil⟩,
    rfl⟩

theorem step_nil_not_busy {s : State} (hp : s.phase ≠ .busy) (hturns : s.turns = []) : step s = .next s :=
  (step_nil hturns).trans (engineTurn_not_busy hp)

theorem run_of_step_self {s : State} (h : step s = .next s) (k : Nat) : Host.Core.run core k s = .next s := by
  induction k with
  | zero => rfl
  | succ k ih => exact (run_of_step h k).trans ih

/-- Settles O52: outside `BUSY` the engine's turn changes nothing, so a run with no turn left repeats one state. -/
theorem engineWaitsOutsideBusy : Obligations.EngineWaitsOutsideBusy := by
  intro s hp
  refine ⟨fun rest => ?_, step_nil_not_busy hp, fun ⟨hturns, _, _⟩ => run_of_step_self (step_nil_not_busy hp hturns)⟩
  exact (step_engine rfl).trans (engineTurn_not_busy (s := { s with turns := rest }) hp)

end Sys2Proof.Machine
end

section
/-!
The `BUSY` rule (R247): which accesses set `HZD`, what they record for the host, and the completion after them.
-/

namespace Sys2Proof.Machine

/-! ### Accesses that set `HZD` -/

theorem regAt_eq_status {off : Nat} (h : regAt off = some .status) : off = 0x0C := by
  simp only [regAt] at h
  split at h
  · split at h <;> simp_all
  · cases h

theorem Access.exists_regAt {off : Nat} (h : (Access.readReg off).wf = true) : ∃ r, regAt off = some r :=
  ⟨_, if_pos ((Access.readReg_wf_iff off).1 h)⟩

/-- What the host's record becomes, from `rs`, by an access in `BUSY` that sets `HZD` (R190, R193): a write adds nothing,
`CTRL` and the reserved offsets read 0, and every other read returns a value the spec leaves open. -/
inductive HazardRecord (rs : List Word) : Access → List Word → Prop
  | writeReg (off : Nat) (v : Word) : HazardRecord rs (.writeReg off v) rs
  | writeMem (space : Space) (b : Nat) (v : Byte) : HazardRecord rs (.writeMem space b v) rs
  | readZero (off : Nat) (h : regAt off = some .ctrl ∨ regAt off = some .reserved) :
      HazardRecord rs (.readReg off) (0 :: rs)
  | readFree (off : Nat) (v : Word) (h : ¬ (regAt off = some .ctrl ∨ regAt off = some .reserved)) :
      HazardRecord rs (.readReg off) (v :: rs)
  | readMem (space : Space) (b : Nat) (v : Word) : HazardRecord rs (.readMem space b) (v :: rs)

/-- R247: in `BUSY` every access but a `STATUS` read and a `CTRL` write sets `HZD`; beyond it only the host's record and the
count of free values move. -/
theorem runAccess_hazard {s : State} (hp : s.phase = .busy) {a : Access} (hwf : a.wf = true)
    (ha : a.allowedInBusy = false) :
    ∃ rs n, runAccess a s = .next { s with hzd := true, reads := rs, draws := n } ∧ HazardRecord s.reads a rs := by
  cases a with
  | readReg off =>
    obtain ⟨r, hr⟩ := Access.exists_regAt hwf
    have hstatus : r ≠ .status := fun h => beq_eq_false_iff_ne.1 ha (regAt_eq_status (hr.trans (congrArg some h)))
    have hrun : runAccess (.readReg off) s = .next (readRegister r s) := by simp only [runAccess, hr]
    rw [hrun]
    by_cases hzero : r = .ctrl ∨ r = .reserved
    · rw [readRegister_busy_zero hp hzero]
      exact ⟨_, _, rfl, .readZero off (by simpa only [hr, Option.some.injEq] using hzero)⟩
    · rw [readRegister_busy_free hp ⟨hstatus, not_or.1 hzero⟩]
      exact ⟨_, _, rfl, .readFree off _ (by simpa only [hr, Option.some.injEq] using hzero)⟩
  | writeReg off v =>
    obtain ⟨r, hr⟩ := Access.exists_regAt hwf
    have hctrl : r ≠ .ctrl := fun h => beq_eq_false_iff_ne.1 ha (regAt_eq_ctrl (hr.trans (congrArg some h)))
    exact ⟨_, _, runAccess_write_busy hp hr hctrl v, .writeReg off v⟩
  | readMem space b => exact ⟨_, _, congrArg _ (readPort_busy hp space b), .readMem space b _⟩
  | writeMem space b v => exact ⟨_, _, congrArg _ (if_pos hp), .writeMem space b v⟩

theorem AccessEffect.hzd_of_allowed {s t : State} {a : Access} (h : AccessEffect s a t) (ha : a.allowedInBusy = true)
    (ht : t.hzd = true) : s.hzd = true := by
  rcases h.hzd_cases with hsame | ⟨-, -, hnot⟩ | ⟨hclear, -⟩
  · exact hsame ▸ ht
  · cases ha.symm.trans hnot
  · cases ht.symm.trans hclear

/-! ### The completion after them -/

/-- A completion reads neither `HZD` nor the host's side of the state, and leaves both as they are. -/
theorem completeInstr_of_same_engine (i : Instr) (s : State) (ts : List Turn) (rs : List Word) (n : Nat) (z : Bool) :
    completeInstr i { s with turns := ts, hzd := z, reads := rs, draws := n } =
      { completeInstr i s with turns := ts, hzd := z, reads := rs, draws := n } := by
  cases i <;> rfl

/-- R247: a command in flight completes with the same result, whatever `HZD` and the host's side of the state are. -/
theorem engineTurn_of_same_engine {s u : State} (hp : s.phase = .busy) (h : engineTurn s = .next u) (ts : List Turn)
    (rs : List Word) (n : Nat) (z : Bool) :
    engineTurn { s with turns := ts, hzd := z, reads := rs, draws := n } =
      .next { u with turns := ts, hzd := z, reads := rs, draws := n } := by
  rw [engineTurn_busy hp] at h
  obtain ⟨i, hi, he, rfl⟩ := complete_next h
  rw [← completeInstr_of_same_engine]
  exact engineTurn_of_accepted hp hi ((commandError_congr _ rfl rfl rfl).trans he)

/-- Settles O36: an allowed access cannot set `HZD`, and any other is `runAccess_hazard`, after which the completion is the
same but for the flag and the host's record. -/
theorem busyAccessesOnlySetHazard : Obligations.BusyAccessesOnlySetHazard := by
  intro s rest a hp hwf
  simp only [step_host_access]
  cases ha : a.allowedInBusy with
  | true =>
    obtain ⟨t, ht⟩ := runAccess_total hwf { s with turns := rest }
    exact ⟨t, ht, fun _ hz => (runAccess_effect ht).hzd_of_allowed ha hz, nofun⟩
  | false =>
    obtain ⟨rs, n, ht, hrec⟩ := runAccess_hazard (s := { s with turns := rest }) hp hwf ha
    refine ⟨_, ht, nofun, fun _ => ⟨rfl, ?_, ?_, ?_, fun u hu => engineTurn_of_same_engine hp hu rest rs n true⟩⟩
    · rintro off v rfl
      cases hrec
      rfl
    · rintro space b v rfl
      cases hrec
      rfl
    · rintro off rfl hzero
      cases hrec with
      | readZero => rfl
      | readFree _ _ hfree => exact absurd hzero hfree

end Sys2Proof.Machine
end
